-- ==== Sys2Proof/Word.lean ====
section
/-! DEFINITION. The words of BBFP: what the spec treats as bits. Operand words, response values and
payload words are 32 bits wide (R60, R61, R26), output bytes 8 (R41), command words 101 (R60). Positions,
costs, counts and widths are natural numbers, because all arithmetic of the rules is over the integers (R8). -/

namespace Sys2Proof

/-- An operand word, a payload word, a response value (R60, R26, R47). -/
abbrev Word := BitVec 32

/-- One output byte as the host sees it (R41, R45). -/
abbrev Byte := BitVec 8

/-- The command word `CW` (R60). -/
abbrev CommandWord := BitVec 101

/-- The operation select `OP` (R60). -/
abbrev OpCode := BitVec 5

end Sys2Proof
end

