-- ==== Sys2Proof/Config.lean ====
section
/-! DEFINITION. What an implementation fixes (00_scope.md R6, 10_state.md R25): the configuration record
`Cfg`, the sizes of a storage cell and of a payload byte, and the two free values of the model.
A configuration is data, so that a statement can speak of every legal configuration at once (log 1). -/

namespace Sys2Proof

/-- A field: one unsigned value written with one width (R12, R66). The values and widths are numbers, for
the rules add and compare them over the integers (R8). -/
structure Field where
  value : Nat
  width : Nat
  deriving DecidableEq, Repr

/-- `SINGLE_BYTE_SOURCE` (R6, R146): which operand PK.SETRPT emits when one byte is left to write. -/
inductive ByteSource where
  | value
  | lastValue
  deriving DecidableEq, Repr

/-- The configuration record `Cfg` of R6: every parameter of its table, those with one value in every legal
configuration (R7) included. The two derived ones, `CAP_BITS` and `W_POS`, are `Cfg.capBits` and `Cfg.wPos`. -/
structure Cfg where
  /-- `MAX_BYTES`, the byte count of the output storage (R25). -/
  maxBytes : Nat
  /-- `BITS_PER_BYTE`, the usable bits of one output byte; the source fixes 7. -/
  bitsPerByte : Nat
  /-- `W_DEVIDX`, width of the address/device-index tag. -/
  wDevIdx : Nat
  /-- `DEVIDX_LIMIT`, the bound of the device index; the source fixes 64. -/
  devIdxLimit : Nat
  /-- `FOOTER_SEQ`, the fixed terminator sequence. -/
  footerSeq : List Field
  /-- `W_MSGTYPE`, width of the message-type tag. -/
  wMsgType : Nat
  /-- `W_DEVCMD`, width of the device-command code. -/
  wDevCmd : Nat
  /-- `W_PKTIDX`, width of the packet index. -/
  wPktIdx : Nat
  /-- `W_DCC`, width of the data-change command tag. -/
  wDcc : Nat
  /-- `W_FEW`, width of the small count. -/
  wFew : Nat
  /-- `W_MANY`, width of the large count. -/
  wMany : Nat
  /-- `W_BYTE`, width of the byte value. -/
  wByte : Nat
  /-- `W_CONT`, width of the continuation flag; the source fixes 1. -/
  wCont : Nat
  /-- `W_FWSIZE`, width of the firmware-chunk size. -/
  wFwSize : Nat
  /-- `W_WORD32`, width of a program-event payload word; the source fixes 32. -/
  wWord32 : Nat
  /-- `W_PAY7`, width of a firmware payload field; the source fixes 7. -/
  wPay7 : Nat
  /-- `N_PROG_WORDS`, the fixed count of program-event words. -/
  nProgWords : Nat
  /-- `FEW_MAX`, largest small count. -/
  fewMax : Nat
  /-- `MANY_MAX`, largest large count. -/
  manyMax : Nat
  /-- `MT_DEVCMD`, the device-command message type. -/
  mtDevCmd : Nat
  /-- `MT_SHAREDDC`, the shared-data-change message type. -/
  mtSharedDc : Nat
  /-- `MT_PROGEVT`, the program-event message type. -/
  mtProgEvt : Nat
  /-- `MT_FWPKT`, the firmware-update packet message type. -/
  mtFwPkt : Nat
  /-- `DCC_END_OF_PACKET` (R68), and so on for the eight data-change tags. -/
  dccEndOfPacket : Nat
  dccEndOfChanges : Nat
  dccSkipFew : Nat
  dccSkipMany : Nat
  dccSetSeq : Nat
  dccSetFewValue : Nat
  dccSetFewLast : Nat
  dccSetManyValue : Nat
  /-- `MAX_WIDTH`, the widest field BB.WRITE takes (R102). -/
  maxWidth : Nat
  /-- `SINGLE_BYTE_SOURCE` (R146). -/
  singleByteSource : ByteSource
  deriving DecidableEq, Repr

/-- The usable bits of one storage cell: the 7 that R41, R42, R45 and R46 write in the bit stream and the
read-out. In a legal configuration it is `BITS_PER_BYTE` (R7). -/
abbrev Config.cellBits : Nat := 7

/-- Width of one element of the `PAY8` view: an unsigned byte (R47). -/
abbrev Config.wPay8 : Nat := 8

/-- `CAP_BITS = MAX_BYTES * BITS_PER_BYTE` (R6, R25). -/
def Cfg.capBits (cfg : Cfg) : Nat := cfg.maxBytes * cfg.bitsPerByte

/-- `W_POS = ceil(log2(CAP_BITS + 1))`, the width of the write-position register (R21). -/
def Cfg.wPos (cfg : Cfg) : Nat := Nat.clog 2 (cfg.capBits + 1)

/-- The default configuration of R6 for a store of `maxBytes` bytes. The spec marks these defaults as its own
choice (D7 to D14); a statement that needs one names it (log 2). -/
def Config.defaults (maxBytes : Nat) : Cfg where
  maxBytes := maxBytes
  bitsPerByte := 7
  wDevIdx := 7
  devIdxLimit := 64
  footerSeq := [⟨0x77, 7⟩]
  wMsgType := 7
  wDevCmd := 9
  wPktIdx := 16
  wDcc := 3
  wFew := 4
  wMany := 8
  wByte := 8
  wCont := 1
  wFwSize := 7
  wWord32 := 32
  wPay7 := 7
  nProgWords := 3
  fewMax := 15
  manyMax := 255
  mtDevCmd := 1
  mtSharedDc := 2
  mtProgEvt := 3
  mtFwPkt := 4
  dccEndOfPacket := 0
  dccEndOfChanges := 1
  dccSkipFew := 2
  dccSkipMany := 3
  dccSetSeq := 4
  dccSetFewValue := 5
  dccSetFewLast := 6
  dccSetManyValue := 7
  maxWidth := 32
  singleByteSource := .value

/-- `MAX_BYTES` of the machine at reset. PRESUMED: the spec leaves it open (D20) and remarks that the
original software instantiates 200 bytes (K11, log 3). -/
def Config.resetMaxBytes : Nat := 200

/-- FREE VALUE (log 8): what the 32-bit `val` of a response holds when the number it should carry needs
more than 32 bits. The spec states no result there (R26, R104, R106). R7 bounds `W_POS` by 32, so no legal
configuration with `WP` within the capacity reaches it. -/
opaque Config.wideVal : Nat → Word

/-- FREE VALUE (log 17): the seven usable bits of storage cell `i` after the `n`-th RESET. R200 and R31 make
every cell unspecified there; no response depends on one (R27). -/
opaque Config.resetCell : (n i : Nat) → BitVec 7

end Sys2Proof
end

