-- ==== Sys2Proof/Syntax.lean ====
section
/-! DEFINITION. The command set of BBFP (00_scope.md R2, 30_encoding.md R62): one constructor per row of the
opcode table, with the operand words and payload that command uses. -/

namespace Sys2Proof

/-- A command with its operands (R62). Operand words keep all 32 bits (R61); a payload is the list of its
elements as 32-bit words, an element of a byte payload being a word below 256 (R47, log 15). -/
inductive Instr where
  /-- RESET (R200). -/
  | reset
  /-- BB.HASCAP bits (R101). -/
  | hasCap (bits : Word)
  /-- BB.WRITE value, width (R103). -/
  | write (value width : Word)
  /-- BB.CHECKPOINT (R104). -/
  | checkpoint
  /-- BB.RESTORE sp (R105). -/
  | restore (sp : Word)
  /-- BB.GETDATA (R106). -/
  | getData
  /-- PK.HEADER devIndex (R122). -/
  | header (devIndex : Word)
  /-- PK.FOOTER (R123). -/
  | footer
  /-- PK.DEVCTRL cmd (R124). -/
  | devCtrl (cmd : Word)
  /-- PK.BEGINDC pktIndex (R125). -/
  | beginDc (pktIndex : Word)
  /-- PK.ENDDC isLast (R126). -/
  | endDc (isLast : Word)
  /-- PK.SKIP N, `N` signed (R141). -/
  | skip (n : Word)
  /-- PK.SETSEQ num, P, `num` signed, `P` bytes (R143). -/
  | setSeq (num : Word) (payload : List Word)
  /-- PK.SETRPT value, lastValue, num, `num` signed (R144). -/
  | setRpt (value lastValue num : Word)
  /-- PK.PROGEVT P, `P` 32-bit words (R170). -/
  | progEvt (payload : List Word)
  /-- PK.FWCHUNK size, P, `P` bytes (R171). -/
  | fwChunk (size : Word) (payload : List Word)
  deriving DecidableEq, Repr

end Sys2Proof
end

