-- ==== Sys2Proof/Decode.lean ====
section
/-! DEFINITION. The command encoding of 30_encoding.md (R60 to R63): the command record at the port, the
decoder, total on every record and refusing reserved `OP` values by name, and the encoder. -/

namespace Sys2Proof

/-- A command record as the host issues it: the 101-bit word `CW` and the payload that travels beside it
(R60). The elements are kept as 32-bit words whatever view the command reads them through (log 15). -/
structure Command where
  cw : CommandWord
  payload : List Word
  deriving DecidableEq, Repr

/-- `CW` put together from its four fields (R60): `OP` in 100:96, `A` in 95:64, `B` in 63:32, `C` in 31:0. -/
def Command.pack (op : OpCode) (a b c : Word) : CommandWord := op ++ a ++ b ++ c

/-- `OP = CW[100:96]` (R60). -/
def Command.op (c : Command) : OpCode := c.cw.extractLsb' 96 5

/-- `A = CW[95:64]` (R60). -/
def Command.a (c : Command) : Word := c.cw.extractLsb' 64 32

/-- `B = CW[63:32]` (R60). -/
def Command.b (c : Command) : Word := c.cw.extractLsb' 32 32

/-- `C = CW[31:0]` (R60). -/
def Command.c (c : Command) : Word := c.cw.extractLsb' 0 32

/-- Why a command record has no instruction. -/
inductive DecodeError where
  /-- `OP` is 0x06, 0x07 or 0x12 to 0x1F (R63). -/
  | reservedOp
  deriving DecidableEq, Repr

/-- The opcode map of R62. Decoding looks at `OP` alone; operand words and payloads a command does not use
are ignored (R61). Every code that no row of the table selects is reserved (R63). -/
def decode (c : Command) : Except DecodeError Instr :=
  match c.op.toNat with
  | 0x00 => .ok .reset
  | 0x01 => .ok (.hasCap c.a)
  | 0x02 => .ok (.write c.a c.b)
  | 0x03 => .ok .checkpoint
  | 0x04 => .ok (.restore c.a)
  | 0x05 => .ok .getData
  | 0x08 => .ok (.header c.a)
  | 0x09 => .ok .footer
  | 0x0A => .ok (.devCtrl c.a)
  | 0x0B => .ok (.beginDc c.a)
  | 0x0C => .ok (.endDc c.a)
  | 0x0D => .ok (.skip c.a)
  | 0x0E => .ok (.setSeq c.a c.payload)
  | 0x0F => .ok (.setRpt c.a c.b c.c)
  | 0x10 => .ok (.progEvt c.payload)
  | 0x11 => .ok (.fwChunk c.a c.payload)
  | _ => .error .reservedOp

/-- The `OP` value of a command (R62). -/
def Instr.opcode : Instr → OpCode
  | .reset => 0x00
  | .hasCap _ => 0x01
  | .write _ _ => 0x02
  | .checkpoint => 0x03
  | .restore _ => 0x04
  | .getData => 0x05
  | .header _ => 0x08
  | .footer => 0x09
  | .devCtrl _ => 0x0A
  | .beginDc _ => 0x0B
  | .endDc _ => 0x0C
  | .skip _ => 0x0D
  | .setSeq _ _ => 0x0E
  | .setRpt _ _ _ => 0x0F
  | .progEvt _ => 0x10
  | .fwChunk _ _ => 0x11

/-- The operand words `A`, `B`, `C` of a command, 0 where it uses none (R62). -/
def Instr.operandWords : Instr → Word × Word × Word
  | .reset => (0, 0, 0)
  | .hasCap bits => (bits, 0, 0)
  | .write value width => (value, width, 0)
  | .checkpoint => (0, 0, 0)
  | .restore sp => (sp, 0, 0)
  | .getData => (0, 0, 0)
  | .header devIndex => (devIndex, 0, 0)
  | .footer => (0, 0, 0)
  | .devCtrl cmd => (cmd, 0, 0)
  | .beginDc pktIndex => (pktIndex, 0, 0)
  | .endDc isLast => (isLast, 0, 0)
  | .skip n => (n, 0, 0)
  | .setSeq num _ => (num, 0, 0)
  | .setRpt value lastValue num => (value, lastValue, num)
  | .progEvt _ => (0, 0, 0)
  | .fwChunk size _ => (size, 0, 0)

/-- The payload of a command, empty where it takes none (R62). -/
def Instr.payloadList : Instr → List Word
  | .reset => []
  | .hasCap _ => []
  | .write _ _ => []
  | .checkpoint => []
  | .restore _ => []
  | .getData => []
  | .header _ => []
  | .footer => []
  | .devCtrl _ => []
  | .beginDc _ => []
  | .endDc _ => []
  | .skip _ => []
  | .setSeq _ payload => payload
  | .setRpt _ _ _ => []
  | .progEvt payload => payload
  | .fwChunk _ payload => payload

/-- The command record of an instruction (R60, R62): unused operand words 0, unused payload empty. -/
def encode (i : Instr) : Command :=
  ⟨Command.pack i.opcode i.operandWords.1 i.operandWords.2.1 i.operandWords.2.2, i.payloadList⟩

/-- The most zero elements the host's word is given as a byte payload (log 16). -/
def tablePayloadMax : Nat := 256

/-- The payload beside a bare table word: as many zero elements as the command reads at the default
configuration, at most `tablePayloadMax` (DESIGN CHOICE, log 16). -/
def tablePayload (cw : CommandWord) : List Word :=
  match (Command.op ⟨cw, []⟩).toNat with
  | 0x0E => List.replicate (min (Command.a ⟨cw, []⟩).toNat tablePayloadMax) 0
  | 0x10 => List.replicate (Config.defaults Config.resetMaxBytes).nProgWords 0
  | 0x11 => List.replicate (min (Command.a ⟨cw, []⟩).toNat tablePayloadMax) 0
  | _ => []

/-- The command record of a word as the opcode table numbers its bits: the low `nbits` bits of `w`, cut to
the 101 bits of `CW`, with a payload of zeros beside. -/
def tableCommand (nbits w : Nat) : Command :=
  ⟨BitVec.ofNat 101 (w % 2 ^ nbits), tablePayload (BitVec.ofNat 101 (w % 2 ^ nbits))⟩

/-- The instruction the decoder reads from a table word. -/
def decodeTableWord (nbits w : Nat) : Option Instr :=
  match decode (tableCommand nbits w) with
  | .ok i => some i
  | .error _ => none

end Sys2Proof
end

