-- ==== Sys2Proof/Machine/State.lean ====
section
/-! DEFINITION. The state of one BBFP (10_state.md): the write position and the output storage (R20), the
constants of the instance (R25), and the host's side of the command port. Plain data throughout. -/

namespace Sys2Proof.Machine

/-- The output storage `DATA` (R41): cells by byte index. Canonical form: byte indices strictly rising, no
cell equal to `unwrittenCell` (`Memory.wf`). -/
abbrev Memory := List Host.Cell

/-- What a storage cell that is not listed reads as. DESIGN CHOICE (unsafe, log 4): the spec leaves the
content after reset unspecified (R31); no response depends on it (R27). -/
abbrev unwrittenCell : Byte := 0

/-- The record one command answers (R18, R26). -/
structure Response where
  /-- 1 for success, 0 for insufficient capacity (R180). -/
  ok : Bool
  /-- The answer of BB.HASCAP, BB.CHECKPOINT, BB.GETDATA; 0 for every other command. -/
  val : Word
  /-- The output view of BB.GETDATA; empty for every other command. -/
  bytes : List Byte
  deriving DecidableEq, Repr

/-- The machine. -/
structure State where
  /-- The constants of the instance: read by every command, written by none (R25, log 1). -/
  cfg : Cfg
  /-- `WP`, the write position in bits (R21); a number in `0 .. CAP_BITS` in every reachable state (R22). -/
  wp : Nat
  /-- `DATA`, the output storage (R41). -/
  mem : Memory
  /-- The host's commands not yet performed, next one first. The MODEL's field: the command stream is the
  host's (R17, R23), and the step has no other way to be given its command (log 5). -/
  commands : List Command
  /-- The response of the last command performed. The MODEL's field: the block keeps none (R26) and no
  command reads it; the step has no other way to hand it out (log 6). -/
  response : Option Response
  /-- How many RESET commands have been performed. The MODEL's field: the free cells a RESET leaves are drawn
  by it (`Config.resetCell`, log 17); nothing else reads it. -/
  resets : Nat
  deriving DecidableEq, Repr

/-- The state after reset (R31, R200): `WP = 0`, storage with nothing listed, no command issued, no
response pending, the default configuration of R6 (log 2, log 3); the counter of free draws at 0 (log 17). -/
def State.reset : State where
  cfg := Config.defaults Config.resetMaxBytes
  wp := 0
  mem := []
  commands := []
  response := none
  resets := 0

/-- Why the machine stops with a fault. -/
inductive Fault where
  /-- BB.GETDATA with `WP` above `CAP_BITS`: the read-out would name storage cells that do not exist (R50).
  Raised by the read-out alone, in states no run reaches (R22). Safe (log 11). -/
  | readOutsideStorage
  deriving DecidableEq, Repr

/-- Why a command has no meaning: the closed list of R185. The source gives a violated caller contract no
behaviour (R183) and the model must not give it one (R184). Every one is safe. `ConcurrentUse` cannot be
expressed, since a step takes one command at a time (U8, log 10). -/
inductive Refusal where
  /-- An instruction without a meaning yet: exec's own arms only. Safe. -/
  | notModelled (mnemonic : String)
  /-- BB.WRITE without room for the field (U1). Safe. -/
  | writeWithoutCapacity
  /-- A value that does not fit its field: BB.WRITE, PK.DEVCTRL, PK.BEGINDC, PK.SETSEQ, PK.SETRPT,
  PK.FWCHUNK (U2). Safe. -/
  | valueTooWide
  /-- BB.WRITE with a width of 0 or above 32 (U3). Safe. -/
  | badWidth
  /-- BB.RESTORE to a position above `WP` (U4). Safe. -/
  | restoreForward
  /-- PK.HEADER with a device index of 64 or more (U5). Safe. -/
  | deviceIndexOutOfRange
  /-- PK.SETSEQ, PK.PROGEVT or PK.FWCHUNK with a payload shorter than it reads (U6). Safe. -/
  | payloadTooShort
  /-- A command record whose `OP` selects no command (U7); raised by the step, before any instruction. Safe. -/
  | reservedOp
  deriving DecidableEq, Repr

/-- What a step or an instruction ends in (R13): success and failure are both a next state. -/
abbrev Result := Host.Outcome State Fault Refusal

end Sys2Proof.Machine
end

