-- ==== Sys2Proof/Machine/Ops.lean ====
section
/-! DEFINITION. The named operations over the storage and the write position (R10 to R12): reading and
writing a cell, the stream mapping, appending a field, the capacity test, Emit, the multi-step emission with
its rollback (R120, R147), the read-out (R45, R46), and how a command ends (R13). The failure response is the
block's only counterpart of taking an exception (R187); it is `State.finish`, shared by every `PK.` command. -/

namespace Sys2Proof.Machine

/-! ### Storage cells -/

/-- Cell `i` of `DATA`; an unlisted cell reads `unwrittenCell`. -/
def Memory.read : Memory → Nat → Byte
  | [], _ => unwrittenCell
  | (a, b) :: m, i => if a = i then b else Memory.read m i

/-- The storage without cell `i`. -/
def Memory.erase (m : Memory) (i : Nat) : Memory := m.filter (fun c => decide (c.1 ≠ i))

/-- The storage with cell `i`, not yet listed, listed in its place. -/
def Memory.insert : Memory → Nat → Byte → Memory
  | [], i, v => [(i, v)]
  | (a, b) :: m, i, v => if i < a then (i, v) :: (a, b) :: m else (a, b) :: Memory.insert m i v

/-- Cell `i` replaced by `v`. Keeps the canonical form: a value that an unlisted cell reads as is not listed. -/
def Memory.write (m : Memory) (i : Nat) (v : Byte) : Memory :=
  if v = unwrittenCell then m.erase i else (m.erase i).insert i v

/-- The canonical form: byte indices strictly rising, no cell listed that holds `unwrittenCell`. -/
def Memory.wf (m : Memory) : Bool :=
  decide (m.Pairwise (fun c d => c.1 < d.1)) && m.all (fun c => decide (c.2 ≠ unwrittenCell))

/-- Cells `0 .. n-1` of the storage after the `draw`-th RESET: free values (R31, R200, log 17), bit 7 of each 0
(R41). -/
def Memory.unspecified (draw n : Nat) : Memory :=
  ((List.range n).map (fun i => (i, (Config.resetCell draw i).setWidth 8))).filter
    (fun c => decide (c.2 ≠ unwrittenCell))

/-! ### The bit stream: the bit order of R42 and R43 stands here alone -/

/-- The cell that holds stream bit `k` (R42). -/
def streamCell (k : Nat) : Nat := k / Config.cellBits

/-- The place of stream bit `k` in its cell (R42). -/
def streamPos (k : Nat) : Nat := k % Config.cellBits

/-- The stream index of bit `j` of cell `i` (R45). -/
def streamIndex (i j : Nat) : Nat := Config.cellBits * i + j

/-- The bit of a field's value that goes out `j`-th: least significant first (R43, R9). -/
def fieldBit (value j : Nat) : Bool := value.testBit j

/-- A byte with bit `j` set to `b`. -/
def setBit (x : Byte) (j : Nat) (b : Bool) : Byte :=
  if b then x ||| BitVec.ofNat 8 (2 ^ j) else x &&& ~~~(BitVec.ofNat 8 (2 ^ j))

/-- Stream bit `SB(k) = DATA[k div 7][k mod 7]` (R10, R42). -/
def Memory.bit (m : Memory) (k : Nat) : Bool := (m.read (streamCell k)).getLsbD (streamPos k)

/-- `SB(k) <- b`: overwritten, never OR-ed into old content (R43). -/
def Memory.setStreamBit (m : Memory) (k : Nat) (b : Bool) : Memory :=
  m.write (streamCell k) (setBit (m.read (streamCell k)) (streamPos k) b)

/-- `MemWrite(DATA, k, w, v)` (R11): stream bits `k .. k+w-1` become the field's bits. -/
def Memory.writeField (m : Memory) (k value : Nat) : Nat → Memory
  | 0 => m
  | w + 1 => (Memory.writeField m k value w).setStreamBit (k + w) (fieldBit value w)

/-! ### Appending and the capacity test -/

/-- `cost(F)`: the sum of the widths, over the integers (R12, R8). -/
def cost (fields : List Field) : Nat := (fields.map Field.width).sum

/-- `WP <- p`. -/
def State.setWp (s : State) (p : Nat) : State := { s with wp := p }

/-- `Append(v, w)` (R12): the field at `WP`, then `WP <- WP + w`. -/
def State.append (s : State) (f : Field) : State :=
  { s with mem := s.mem.writeField s.wp f.value f.width, wp := s.wp + f.width }

/-- The fields of a list appended in order. -/
def State.appendAll (s : State) (fields : List Field) : State := fields.foldl State.append s

/-- The buffer emptied as by construction (R200): `WP <- 0`, every cell unspecified. -/
def State.fresh (s : State) : State :=
  { s with wp := 0, mem := Memory.unspecified s.resets s.cfg.maxBytes, resets := s.resets + 1 }

/-- `HasCap(n)`: `WP + n <= CAP_BITS`, integer arithmetic (R12, R101). -/
def State.hasCap (s : State) (n : Nat) : Bool := decide (s.wp + n ≤ s.cfg.capBits)

/-- `Emit(F)` (R12, R120): the exact cost tested once, then every field or none. -/
def State.emit (s : State) (fields : List Field) : State × Bool :=
  if s.hasCap (cost fields) then (s.appendAll fields, true) else (s, false)

/-- The split of a large count (R141, R144 case 2): emit `chunk` while more than `countMax` is left, then
the tail; stop at the first emission that does not fit. The second argument bounds the number of rounds; the
count itself is bound enough, every chunk taking `countMax >= 1` from it (R140). -/
def State.emitChunks (chunk : List Field) (tail : Nat → List Field) (countMax : Nat) :
    (rounds n : Nat) → State → State × Bool
  | 0, n, s => s.emit (tail n)
  | rounds + 1, n, s =>
    if countMax < n then
      match s.emit chunk with
      | (s', true) => State.emitChunks chunk tail countMax rounds (n - countMax) s'
      | (s', false) => (s', false)
    else s.emit (tail n)

/-- The rollback of a multi-step command (R147): on failure `WP` goes back to the checkpoint `cp`; the bits
the successful sub-steps wrote stay in storage as stale bits (R28, log 9). -/
def rollback (cp : Nat) (r : State × Bool) : State × Bool :=
  match r with
  | (s', true) => (s', true)
  | (s', false) => (s'.setWp cp, false)

/-! ### Read-out -/

/-- `LEN = (WP + 6) div 7`: whole bytes used, rounding up (R46). -/
def State.len (s : State) : Nat := (s.wp + (Config.cellBits - 1)) / Config.cellBits

/-- Bit `j` of output byte `i` (R45): the stream bit when it is valid, else 0; bit 7 is 0 (R41). -/
def State.outBit (s : State) (i j : Nat) : Bool :=
  decide (j < Config.cellBits) && decide (streamIndex i j < s.wp) && s.mem.bit (streamIndex i j)

/-- Output byte `OUT(i)` as the host sees it (R45). At and beyond `LEN` R45 does not define it; this total
function gives 0 there (DESIGN CHOICE, log 18), and no response shows it: the Message ends before `LEN`. -/
def State.out (s : State) (i : Nat) : Byte := BitVec.ofFnLE (fun j : Fin 8 => s.outBit i j.val)

/-- The bytes of the Message, `OUT(0) .. OUT(LEN-1)` (R46). -/
def State.message (s : State) : List Byte := (List.range s.len).map s.out

/-! ### How a command ends -/

/-- The state with the response of the command just performed delivered to the host (R18, R26). -/
def State.answer (s : State) (r : Response) : State := { s with response := some r }

/-- The end of a `PK.` command (R13, R180): `ok`, `val = 0`, no bytes. -/
def State.finish (r : State × Bool) : Result := .next (r.1.answer ⟨r.2, 0, []⟩)

/-- The end of a `PK.` command that makes one pre-check over the field list it writes (R120). -/
def State.finishEmit (s : State) (fields : List Field) : Result := State.finish (s.emit fields)

/-! ### The command port -/

/-- The next command the host issued, and the state once the block has taken it. -/
def State.fetch (s : State) : Option (Command × State) :=
  match s.commands with
  | [] => none
  | c :: rest => some (c, { s with commands := rest })

/-- The refusal of a command record the decoder rejects (R63, R185). -/
def decodeRefusal : DecodeError → Refusal
  | .reservedOp => .reservedOp

end Sys2Proof.Machine
end

