-- ==== Sys2Proof/Machine/Flags.lean ====
section
/-! DEFINITION. The response values of R26. BBFP has no flag that outlives a command; what a command reports
is its response record. -/

namespace Sys2Proof.Machine

/-- A number as the 32-bit `val` of a response (R26, R104). A number of more than 32 bits has no stated
value there: free value (log 8). -/
def val32 (n : Nat) : Word := if n < 2 ^ 32 then BitVec.ofNat 32 n else Config.wideVal n

/-- The answer of a question: 1 (true) or 0 (false) (R101). -/
def valBool (b : Bool) : Word := if b then 1 else 0

/-- The response of a command that has no answer but its success. -/
def Response.success : Response := ⟨true, 0, []⟩

/-- The response of a command that succeeds and answers a value. -/
def Response.value (v : Word) : Response := ⟨true, v, []⟩

end Sys2Proof.Machine
end

