-- ==== Sys2Proof/Machine/Operands.lean ====
section
/-! DEFINITION. The operand forms of R61 and the payload views of R47: unsigned, signed and boolean operand
words, the fit of a value in a field, payload elements. -/

namespace Sys2Proof.Machine

/-- Operand kind `u`: the word as an unsigned number (R61). -/
abbrev operandU (x : Word) : Nat := x.toNat

/-- Operand kind `s`: the word as a signed number, two's complement (R61). -/
abbrev operandS (x : Word) : Int := x.toInt

/-- Operand kind `b`: true when the word is not zero (R61). -/
def operandB (x : Word) : Bool := decide (x ≠ 0)

/-- A signed count that is positive, as a number (R140); 0 for the trivial counts. -/
def count (x : Word) : Nat := (operandS x).toNat

/-- `fits(v, w)`: `v < 2^w` (R9, R70). -/
def fits (v w : Nat) : Bool := decide (v < 2 ^ w)

/-- Payload element `i`, read as unsigned: `MemRead(PAY8, i)` and `MemRead(PAY32, i)` (R11, R47). Read only
below the payload's length. -/
def memRead (payload : List Word) (i : Nat) : Nat := (payload.getD i 0).toNat

/-- The first `n` elements of a payload read through the `PAY8` view, in ascending order (R47, R52). -/
def pay8 (payload : List Word) (n : Nat) : List Nat := (List.range n).map (memRead payload)

/-- The first `n` elements of a payload read through the `PAY32` view. -/
def pay32 (payload : List Word) (n : Nat) : List Nat := (List.range n).map (memRead payload)

/-- A `PAY8` element fits a field of `w` bits: it is a byte (R47, log 15) and it fits (R70). -/
def fitsPay8 (w v : Nat) : Bool := fits v Config.wPay8 && fits v w

end Sys2Proof.Machine
end

