-- ==== Sys2Proof/Machine/BitBuffer.lean ====
section
/-! DEFINITION. The Bit Buffer commands (40_bit_buffer.md). -/

namespace Sys2Proof.Machine

/-- BB.HASCAP bits (R101). -/
def execHasCap (bits : Word) (s : State) : Result :=
  .next (s.answer (Response.value (valBool (s.hasCap (operandU bits)))))

/-- BB.WRITE value, width (R102, R103), the tests in the rule's order. -/
def execWrite (value width : Word) (s : State) : Result :=
  if ¬(1 ≤ operandU width ∧ operandU width ≤ s.cfg.maxWidth) then .refused .badWidth
  else if ¬fits (operandU value) (operandU width) then .refused .valueTooWide
  else if ¬s.hasCap (operandU width) then .refused .writeWithoutCapacity
  else .next ((s.append ⟨operandU value, operandU width⟩).answer Response.success)

/-- BB.CHECKPOINT (R104). -/
def execCheckpoint (s : State) : Result :=
  .next (s.answer (Response.value (val32 s.wp)))

/-- BB.RESTORE sp (R105): `DATA` is untouched. -/
def execRestore (sp : Word) (s : State) : Result :=
  if ¬operandU sp ≤ s.wp then .refused .restoreForward
  else .next ((s.setWp (operandU sp)).answer Response.success)

/-- BB.GETDATA (R106): the bytes by value (R55). The storage has no cell beyond `CAP_BITS` to read out
(R50); no run comes there (R22, log 11). -/
def execGetData (s : State) : Result :=
  if s.cfg.capBits < s.wp then .fault .readOutsideStorage
  else .next (s.answer ⟨true, val32 s.len, s.message⟩)

end Sys2Proof.Machine
end

