-- ==== Sys2Proof/Machine/Framing.lean ====
section
/-! DEFINITION. The framing and control commands (41_framing_and_control.md): their field lists and meanings. -/

namespace Sys2Proof.Machine

/-- The field list of PK.HEADER (R122). -/
def headerFields (cfg : Cfg) (devIndex : Nat) : List Field := [⟨devIndex, cfg.wDevIdx⟩]

/-- PK.HEADER devIndex (R122): the contract is the source's bound, whatever the field's width (C14). -/
def execHeader (devIndex : Word) (s : State) : Result :=
  if ¬operandU devIndex < s.cfg.devIdxLimit then .refused .deviceIndexOutOfRange
  else s.finishEmit (headerFields s.cfg (operandU devIndex))

/-- PK.FOOTER (R123): the fixed terminator sequence, no checksum, no padding. -/
def execFooter (s : State) : Result := s.finishEmit s.cfg.footerSeq

/-- The field list of PK.DEVCTRL (R124). -/
def devCtrlFields (cfg : Cfg) (cmd : Nat) : List Field :=
  [⟨cfg.mtDevCmd, cfg.wMsgType⟩, ⟨cmd, cfg.wDevCmd⟩]

/-- PK.DEVCTRL cmd (R124). -/
def execDevCtrl (cmd : Word) (s : State) : Result :=
  if ¬fits (operandU cmd) s.cfg.wDevCmd then .refused .valueTooWide
  else s.finishEmit (devCtrlFields s.cfg (operandU cmd))

/-- The field list of PK.BEGINDC (R125). -/
def beginDcFields (cfg : Cfg) (pktIndex : Nat) : List Field :=
  [⟨cfg.mtSharedDc, cfg.wMsgType⟩, ⟨pktIndex, cfg.wPktIdx⟩]

/-- PK.BEGINDC pktIndex (R125). -/
def execBeginDc (pktIndex : Word) (s : State) : Result :=
  if ¬fits (operandU pktIndex) s.cfg.wPktIdx then .refused .valueTooWide
  else s.finishEmit (beginDcFields s.cfg (operandU pktIndex))

/-- The field list of PK.ENDDC (R126): true selects end-of-changes (D12). -/
def endDcFields (cfg : Cfg) (isLast : Bool) : List Field :=
  [⟨if isLast then cfg.dccEndOfChanges else cfg.dccEndOfPacket, cfg.wDcc⟩]

/-- PK.ENDDC isLast (R126). -/
def execEndDc (isLast : Word) (s : State) : Result := s.finishEmit (endDcFields s.cfg (operandB isLast))

end Sys2Proof.Machine
end

