-- ==== Sys2Proof/Machine/PayloadMessages.lean ====
section
/-! DEFINITION. The program-event and firmware-chunk commands (43_payload_messages.md). -/

namespace Sys2Proof.Machine

/-- The field list of PK.PROGEVT (R170). -/
def progEvtFields (cfg : Cfg) (payload : List Word) : List Field :=
  ⟨cfg.mtProgEvt, cfg.wMsgType⟩ :: (pay32 payload cfg.nProgWords).map (fun v => ⟨v, cfg.wWord32⟩)

/-- PK.PROGEVT P (R170). -/
def execProgEvt (payload : List Word) (s : State) : Result :=
  if payload.length < s.cfg.nProgWords then .refused .payloadTooShort
  else s.finishEmit (progEvtFields s.cfg payload)

/-- The field list of PK.FWCHUNK (R171). -/
def fwChunkFields (cfg : Cfg) (size : Nat) (payload : List Word) : List Field :=
  ⟨cfg.mtFwPkt, cfg.wMsgType⟩ :: ⟨size, cfg.wFwSize⟩ ::
    (pay8 payload size).map (fun v => ⟨v, cfg.wPay7⟩)

/-- PK.FWCHUNK size, P (R171), the tests in the rule's order. -/
def execFwChunk (size : Word) (payload : List Word) (s : State) : Result :=
  if ¬fits (operandU size) s.cfg.wFwSize then .refused .valueTooWide
  else if payload.length < operandU size then .refused .payloadTooShort
  else if ¬(pay8 payload (operandU size)).all (fitsPay8 s.cfg.wPay7) then .refused .valueTooWide
  else s.finishEmit (fwChunkFields s.cfg (operandU size) payload)

end Sys2Proof.Machine
end

