-- ==== Sys2Proof/Machine/Reset.lean ====
section
/-! DEFINITION. RESET (70_reset_and_hazards.md R200). -/

namespace Sys2Proof.Machine

/-- RESET (R200, R31): `WP <- 0`; every cell of `DATA` becomes unspecified: a free value each, drawn afresh
(log 17); the constants stay (R31). -/
def execReset (s : State) : Result := .next (s.fresh.answer Response.success)

end Sys2Proof.Machine
end

