-- ==== Sys2Proof/Machine/SkipSet.lean ====
section
/-! DEFINITION. The skip and set-bytes commands (42_skip_and_set.md): their field lists by tier and their
meanings. -/

namespace Sys2Proof.Machine

/-! ### PK.SKIP -/

/-- One maximal skip-many command (R141). -/
def skipChunk (cfg : Cfg) : List Field := [⟨cfg.dccSkipMany, cfg.wDcc⟩, ⟨cfg.manyMax, cfg.wMany⟩]

/-- The last command of a skip, for a count of at most `MANY_MAX` (R141): skip-many above `FEW_MAX`. -/
def skipTail (cfg : Cfg) (n : Nat) : List Field :=
  if cfg.fewMax < n then [⟨cfg.dccSkipMany, cfg.wDcc⟩, ⟨n, cfg.wMany⟩]
  else [⟨cfg.dccSkipFew, cfg.wDcc⟩, ⟨n, cfg.wFew⟩]

/-- PK.SKIP N (R141). -/
def execSkip (n : Word) (s : State) : Result :=
  if operandS n ≤ 0 then State.finish (s, true)
  else State.finish (rollback s.wp
    (s.emitChunks (skipChunk s.cfg) (skipTail s.cfg) s.cfg.manyMax (count n) (count n)))

/-! ### PK.SETSEQ -/

/-- The (byte, more-follow flag) pair of element `i` out of `num` (R143): the flag is 0 on the last. -/
def seqPair (cfg : Cfg) (num i value : Nat) : List Field :=
  [⟨value, cfg.wByte⟩, ⟨if i < num - 1 then 1 else 0, cfg.wCont⟩]

/-- The field list of PK.SETSEQ for `num >= 1` (R143). -/
def seqFields (cfg : Cfg) (num : Nat) (payload : List Word) : List Field :=
  ⟨cfg.dccSetSeq, cfg.wDcc⟩ :: (List.range num).flatMap (fun i => seqPair cfg num i (memRead payload i))

/-- PK.SETSEQ num, P (R143): the trivial count first, then the payload's contracts (R189). -/
def execSetSeq (num : Word) (payload : List Word) (s : State) : Result :=
  if operandS num ≤ 0 then State.finish (s, true)
  else if payload.length < count num then .refused .payloadTooShort
  else if ¬(pay8 payload (count num)).all (fitsPay8 s.cfg.wByte) then .refused .valueTooWide
  else s.finishEmit (seqFields s.cfg (count num) payload)

/-! ### PK.SETRPT -/

/-- The byte case 1 emits (R144, R146): `SINGLE_BYTE_SOURCE` chooses. -/
def singleByte (cfg : Cfg) (value lastValue : Nat) : Nat :=
  match cfg.singleByteSource with
  | .value => value
  | .lastValue => lastValue

/-- The encoding of at most `MANY_MAX` copies: cases 1, 3, 4 and 5 of R144, in its order (R148). -/
def rptTail (cfg : Cfg) (value lastValue n : Nat) : List Field :=
  if n = 1 then
    [⟨cfg.dccSetSeq, cfg.wDcc⟩, ⟨singleByte cfg value lastValue, cfg.wByte⟩, ⟨0, cfg.wCont⟩]
  else if cfg.fewMax < n then
    [⟨cfg.dccSetManyValue, cfg.wDcc⟩, ⟨n, cfg.wMany⟩, ⟨value, cfg.wByte⟩]
  else if value = lastValue then
    [⟨cfg.dccSetFewLast, cfg.wDcc⟩, ⟨n, cfg.wFew⟩]
  else
    [⟨cfg.dccSetFewValue, cfg.wDcc⟩, ⟨n, cfg.wFew⟩, ⟨value, cfg.wByte⟩]

/-- One maximal chunk of case 2: `value` as both value and last value (R144). -/
def rptChunk (cfg : Cfg) (value : Nat) : List Field := rptTail cfg value value cfg.manyMax

/-- PK.SETRPT value, lastValue, num (R144): the trivial count first, then both values' fit (R189). -/
def execSetRpt (value lastValue num : Word) (s : State) : Result :=
  if operandS num ≤ 0 then State.finish (s, true)
  else if ¬(fits (operandU value) s.cfg.wByte && fits (operandU lastValue) s.cfg.wByte) then
    .refused .valueTooWide
  else State.finish (rollback s.wp
    (s.emitChunks (rptChunk s.cfg (operandU value)) (rptTail s.cfg (operandU value) (operandU lastValue))
      s.cfg.manyMax (count num) (count num)))

end Sys2Proof.Machine
end

