-- ==== Sys2Proof/Machine/Dispatch.lean ====
section
/-! DEFINITION. One command performed (R18): each constructor's arm is one call of its meaning. -/

namespace Sys2Proof.Machine

def exec (i : Instr) (s : State) : Host.Outcome State Fault Refusal :=
  match i with
  | .reset => Sys2Proof.Machine.execReset s
  | .hasCap bits => Sys2Proof.Machine.execHasCap bits s
  | .write value width => Sys2Proof.Machine.execWrite value width s
  | .checkpoint => Sys2Proof.Machine.execCheckpoint s
  | .restore sp => Sys2Proof.Machine.execRestore sp s
  | .getData => Sys2Proof.Machine.execGetData s
  | .header devIndex => Sys2Proof.Machine.execHeader devIndex s
  | .footer => Sys2Proof.Machine.execFooter s
  | .devCtrl cmd => Sys2Proof.Machine.execDevCtrl cmd s
  | .beginDc pktIndex => Sys2Proof.Machine.execBeginDc pktIndex s
  | .endDc isLast => Sys2Proof.Machine.execEndDc isLast s
  | .skip n => Sys2Proof.Machine.execSkip n s
  | .setSeq num payload => Sys2Proof.Machine.execSetSeq num payload s
  | .setRpt value lastValue num => Sys2Proof.Machine.execSetRpt value lastValue num s
  | .progEvt payload => Sys2Proof.Machine.execProgEvt payload s
  | .fwChunk size payload => Sys2Proof.Machine.execFwChunk size payload s

end Sys2Proof.Machine
end

