-- ==== Sys2Proof/Machine/Step.lean ====
section
/-! DEFINITION. One step (R16, R18, R23): the block performs the next command the host issued, whole. -/

namespace Sys2Proof.Machine

/-- With no command issued the block is idle, which has no effect (R186, R191). A command record with a
reserved `OP` is refused (R63); any other is decoded and performed. -/
def step (s : State) : Host.Outcome State Fault Refusal :=
  match s.fetch with
  | none => .next s
  | some (c, s') =>
    match decode c with
    | .error e => .refused (decodeRefusal e)
    | .ok i => exec i s'

/-- The state with the instruction of a table word issued as the host's next command (log 5, log 16). -/
def State.withFetchWord (s : State) (nbits w : Nat) : State :=
  { s with commands := tableCommand nbits w :: s.commands }

end Sys2Proof.Machine
end

