-- ==== Sys2Proof/Machine/Layout.lean ====
section
/-! DEFINITION. What each command writes and when it is refused, said once and without a loop: the layout
table of R69 with the closed forms of R142 and R145, the refusal table of R185 in the order of R189, and how
far into the storage a command reaches (R28). `exec` does not use this file; statements compare the two. -/

namespace Sys2Proof.Machine

/-! ### Splitting a count -/

/-- `k = (n - 1) div MANY_MAX`: the maximal chunks before the last command (R142, R145). -/
def chunkCount (countMax n : Nat) : Nat := (n - 1) / countMax

/-- `r = n - k * MANY_MAX`: the count of the last command (R142, R145). -/
def tailCount (countMax n : Nat) : Nat := n - chunkCount countMax n * countMax

/-- `k` copies of the chunk, then the tail's fields. -/
def splitFields (chunk : List Field) (tail : Nat → List Field) (countMax n : Nat) : List Field :=
  (List.replicate (chunkCount countMax n) chunk).flatten ++ tail (tailCount countMax n)

/-- The whole layout of a skip of `n >= 1` (R142). -/
def skipFields (cfg : Cfg) (n : Nat) : List Field :=
  splitFields (skipChunk cfg) (skipTail cfg) cfg.manyMax n

/-- The whole layout of `n >= 1` repeated bytes (R145). -/
def rptFields (cfg : Cfg) (value lastValue n : Nat) : List Field :=
  splitFields (rptChunk cfg value) (rptTail cfg value lastValue) cfg.manyMax n

/-! ### The layout table -/

/-- The ten commands of the packer (R2). -/
def isPacker : Instr → Bool
  | .reset => false
  | .hasCap _ => false
  | .write _ _ => false
  | .checkpoint => false
  | .restore _ => false
  | .getData => false
  | .header _ => true
  | .footer => true
  | .devCtrl _ => true
  | .beginDc _ => true
  | .endDc _ => true
  | .skip _ => true
  | .setSeq _ _ => true
  | .setRpt _ _ _ => true
  | .progEvt _ => true
  | .fwChunk _ _ => true

/-- The fields a command writes when it succeeds, in stream order (R69). -/
def layout (cfg : Cfg) : Instr → List Field
  | .reset => []
  | .hasCap _ => []
  | .write value width => [⟨operandU value, operandU width⟩]
  | .checkpoint => []
  | .restore _ => []
  | .getData => []
  | .header devIndex => headerFields cfg (operandU devIndex)
  | .footer => cfg.footerSeq
  | .devCtrl cmd => devCtrlFields cfg (operandU cmd)
  | .beginDc pktIndex => beginDcFields cfg (operandU pktIndex)
  | .endDc isLast => endDcFields cfg (operandB isLast)
  | .skip n => if operandS n ≤ 0 then [] else skipFields cfg (count n)
  | .setSeq num payload => if operandS num ≤ 0 then [] else seqFields cfg (count num) payload
  | .setRpt value lastValue num =>
    if operandS num ≤ 0 then [] else rptFields cfg (operandU value) (operandU lastValue) (count num)
  | .progEvt payload => progEvtFields cfg payload
  | .fwChunk size payload => fwChunkFields cfg (operandU size) payload

/-- The bit cost of a command (R69, R120). -/
def bitCost (cfg : Cfg) (i : Instr) : Nat := cost (layout cfg i)

/-- The commands whose layout is written chunk by chunk, with a pre-check each (R147): the chunk's cost and
how many chunks come before the last command. -/
def chunkPlan (cfg : Cfg) : Instr → Nat × Nat
  | .reset => (0, 0)
  | .hasCap _ => (0, 0)
  | .write _ _ => (0, 0)
  | .checkpoint => (0, 0)
  | .restore _ => (0, 0)
  | .getData => (0, 0)
  | .header _ => (0, 0)
  | .footer => (0, 0)
  | .devCtrl _ => (0, 0)
  | .beginDc _ => (0, 0)
  | .endDc _ => (0, 0)
  | .skip n => (cost (skipChunk cfg), chunkCount cfg.manyMax (count n))
  | .setSeq _ _ => (0, 0)
  | .setRpt value _ num => (cost (rptChunk cfg (operandU value)), chunkCount cfg.manyMax (count num))
  | .progEvt _ => (0, 0)
  | .fwChunk _ _ => (0, 0)

/-- How many stream bits, from `WP` on, a command writes: its cost when it fits; else the chunks that fit
before the one that does not, which are rolled back and left stale (R28). -/
def reach (s : State) (i : Instr) : Nat :=
  if s.wp + bitCost s.cfg i ≤ s.cfg.capBits then bitCost s.cfg i
  else (chunkPlan s.cfg i).1 *
    min (chunkPlan s.cfg i).2 ((s.cfg.capBits - s.wp) / (chunkPlan s.cfg i).1)

/-! ### The refusal table -/

/-- Which contract of R185 a command violates in a state, the first in the order of R189. -/
def violation (s : State) : Instr → Option Refusal
  | .reset => none
  | .hasCap _ => none
  | .write value width =>
    if operandU width = 0 ∨ s.cfg.maxWidth < operandU width then some .badWidth
    else if 2 ^ operandU width ≤ operandU value then some .valueTooWide
    else if s.cfg.capBits < s.wp + operandU width then some .writeWithoutCapacity
    else none
  | .checkpoint => none
  | .restore sp => if s.wp < operandU sp then some .restoreForward else none
  | .getData => none
  | .header devIndex => if s.cfg.devIdxLimit ≤ operandU devIndex then some .deviceIndexOutOfRange else none
  | .footer => none
  | .devCtrl cmd => if 2 ^ s.cfg.wDevCmd ≤ operandU cmd then some .valueTooWide else none
  | .beginDc pktIndex => if 2 ^ s.cfg.wPktIdx ≤ operandU pktIndex then some .valueTooWide else none
  | .endDc _ => none
  | .skip _ => none
  | .setSeq num payload =>
    if operandS num ≤ 0 then none
    else if payload.length < count num then some .payloadTooShort
    else if (∃ i < count num, 2 ^ Config.wPay8 ≤ memRead payload i ∨ 2 ^ s.cfg.wByte ≤ memRead payload i) then
      some .valueTooWide
    else none
  | .setRpt value lastValue num =>
    if operandS num ≤ 0 then none
    else if 2 ^ s.cfg.wByte ≤ operandU value ∨ 2 ^ s.cfg.wByte ≤ operandU lastValue then some .valueTooWide
    else none
  | .progEvt payload => if payload.length < s.cfg.nProgWords then some .payloadTooShort else none
  | .fwChunk size payload =>
    if 2 ^ s.cfg.wFwSize ≤ operandU size then some .valueTooWide
    else if payload.length < operandU size then some .payloadTooShort
    else if (∃ i < operandU size, 2 ^ Config.wPay8 ≤ memRead payload i ∨ 2 ^ s.cfg.wPay7 ≤ memRead payload i) then
      some .valueTooWide
    else none

end Sys2Proof.Machine
end

