-- ==== Sys2Proof/Machine/Protocol.lean ====
section
/-! DEFINITION. The ghost `PHASE` of the caller's protocol (10_state.md R32, 70_reset_and_hazards.md R203). It
is no state of the block and no command reads it (R17); a claim may use it as a premise. -/

namespace Sys2Proof.Machine

/-- The life cycle "Empty → Framed → Building → Finalized" (R203). -/
inductive Phase where
  | empty
  | framed
  | building
  | finalized
  deriving DecidableEq, Repr

/-- The ghost: the phase, and its boundary towards the phases before it. -/
structure Ghost where
  phase : Phase
  /-- The least `WP` at which everything the phase rests on is still valid: 0 in Empty, the end of the header
  in Framed and Building, the end of the footer in Finalized. A restore below it is a restore across a phase
  boundary (R203; where the boundary lies is a DESIGN CHOICE, log 14). -/
  floor : Nat
  deriving DecidableEq, Repr

/-- The ghost right after RESET. -/
def Ghost.start : Ghost := ⟨.empty, 0⟩

/-- The ghost after a header that was written up to position `p`: legal in Empty alone (R203). -/
def Ghost.header (g : Ghost) (p : Nat) : Option Ghost :=
  match g.phase with
  | .empty => some ⟨.framed, p⟩
  | .framed => none
  | .building => none
  | .finalized => none

/-- The ghost after a footer that was written up to position `p`: legal in Framed and Building (R203). -/
def Ghost.footer (g : Ghost) (p : Nat) : Option Ghost :=
  match g.phase with
  | .empty => none
  | .framed => some ⟨.finalized, p⟩
  | .building => some ⟨.finalized, p⟩
  | .finalized => none

/-- The ghost after a payload command that took `WP` from `p` to `q`: legal in Framed and Building. A command
that wrote no bit is no payload command (R203) and leaves the ghost (DEDUCED, log 14). -/
def Ghost.payload (g : Ghost) (p q : Nat) : Option Ghost :=
  if p < q then
    match g.phase with
    | .empty => none
    | .framed => some ⟨.building, g.floor⟩
    | .building => some ⟨.building, g.floor⟩
    | .finalized => none
  else some g

/-- The ghost after a restore to position `q`: across the phase boundary it is a violation, above or at the
boundary it is none and the phase stays (R203, log 14). -/
def Ghost.restore (g : Ghost) (q : Nat) : Option Ghost := if q < g.floor then none else some g

/-- The ghost after a successful command `i` took the block from `s` to `t` (R203). A raw BB.WRITE is a
violation in every phase. -/
def Ghost.success (g : Ghost) (i : Instr) (s t : State) : Option Ghost :=
  match i with
  | .reset => some Ghost.start
  | .hasCap _ => some g
  | .write _ _ => none
  | .checkpoint => some g
  | .restore _ => g.restore t.wp
  | .getData => some g
  | .header _ => g.header t.wp
  | .footer => g.footer t.wp
  | .devCtrl _ => g.payload s.wp t.wp
  | .beginDc _ => g.payload s.wp t.wp
  | .endDc _ => g.payload s.wp t.wp
  | .skip _ => g.payload s.wp t.wp
  | .setSeq _ _ => g.payload s.wp t.wp
  | .setRpt _ _ _ => g.payload s.wp t.wp
  | .progEvt _ => g.payload s.wp t.wp
  | .fwChunk _ _ => g.payload s.wp t.wp

/-- The ghost after command `i` took the block from `s` to `t` (R203): `none` is outside the protocol, where
only RESET leads back (DESIGN CHOICE, log 14); a failing command leaves the ghost. -/
def phaseNext (ghost : Option Ghost) (i : Instr) (s t : State) : Option Ghost :=
  if i = .reset then some Ghost.start
  else match ghost with
    | none => none
    | some g => if t.response = some ⟨false, 0, []⟩ then some g else g.success i s t

end Sys2Proof.Machine
end

