-- ==== Sys2Proof/WellFormed.lean ====
section
/-! DEFINITION. Well-formedness: of a command (its payload has the element kind its `OP` fixes, R47, R60)
and of a configuration (the legality predicate of R7). -/

namespace Sys2Proof

/-- Every element of a byte payload is an unsigned byte (R47). -/
def isBytePayload (payload : List Word) : Bool :=
  payload.all (fun x => decide (x.toNat < 2 ^ Config.wPay8))

/-- A command is well formed when its payload is of the kind its `OP` fixes (R47, R60). Operand words carry
no condition: R61 admits every 32-bit value, and what a command makes of it is its meaning's business. -/
def Instr.wf : Instr → Bool
  | .reset => true
  | .hasCap _ => true
  | .write _ _ => true
  | .checkpoint => true
  | .restore _ => true
  | .getData => true
  | .header _ => true
  | .footer => true
  | .devCtrl _ => true
  | .beginDc _ => true
  | .endDc _ => true
  | .skip _ => true
  | .setSeq _ payload => isBytePayload payload
  | .setRpt _ _ _ => true
  | .progEvt _ => true
  | .fwChunk _ payload => isBytePayload payload

/-- `fits(v, w)` with an admissible width: what R7 asks of every field of `FOOTER_SEQ`. -/
def Field.legal (f : Field) : Bool :=
  decide (1 ≤ f.width ∧ f.width ≤ 32 ∧ f.value < 2 ^ f.width)

/-- The widths `W_*` of R6's table, in its order. -/
def Cfg.widths (cfg : Cfg) : List Nat :=
  [cfg.wPos, cfg.wDevIdx, cfg.wMsgType, cfg.wDevCmd, cfg.wPktIdx, cfg.wDcc, cfg.wFew, cfg.wMany, cfg.wByte,
    cfg.wCont, cfg.wFwSize, cfg.wWord32, cfg.wPay7]

/-- The four message-type values of R67. -/
def Cfg.messageTypes (cfg : Cfg) : List Nat :=
  [cfg.mtDevCmd, cfg.mtSharedDc, cfg.mtProgEvt, cfg.mtFwPkt]

/-- The eight data-change tag values of R68. -/
def Cfg.dataChangeTags (cfg : Cfg) : List Nat :=
  [cfg.dccEndOfPacket, cfg.dccEndOfChanges, cfg.dccSkipFew, cfg.dccSkipMany, cfg.dccSetSeq,
    cfg.dccSetFewValue, cfg.dccSetFewLast, cfg.dccSetManyValue]

/-- R7: `MAX_BYTES >= 1`. -/
def Cfg.storeLegal (cfg : Cfg) : Bool := decide (1 ≤ cfg.maxBytes)

/-- R7: `BITS_PER_BYTE = 7`, `MAX_WIDTH = 32`, `W_CONT = 1`, `W_WORD32 = 32`, `W_PAY7 = 7`. -/
def Cfg.fixedLegal (cfg : Cfg) : Bool :=
  decide (cfg.bitsPerByte = 7 ∧ cfg.maxWidth = 32 ∧ cfg.wCont = 1 ∧ cfg.wWord32 = 32 ∧ cfg.wPay7 = 7)

/-- R7: every width `W_*` is in `1 .. MAX_WIDTH`. -/
def Cfg.widthsLegal (cfg : Cfg) : Bool :=
  cfg.widths.all (fun w => decide (1 ≤ w ∧ w ≤ cfg.maxWidth))

/-- R7: `DEVIDX_LIMIT <= 2^W_DEVIDX`. -/
def Cfg.devIdxLegal (cfg : Cfg) : Bool := decide (cfg.devIdxLimit ≤ 2 ^ cfg.wDevIdx)

/-- R7: `1 <= FEW_MAX < MANY_MAX`, each representable in its count field. -/
def Cfg.countsLegal (cfg : Cfg) : Bool :=
  decide (1 ≤ cfg.fewMax ∧ cfg.fewMax < cfg.manyMax ∧ cfg.fewMax ≤ 2 ^ cfg.wFew - 1 ∧
    cfg.manyMax ≤ 2 ^ cfg.wMany - 1)

/-- R7: message-type values fit their field and are pairwise distinct. -/
def Cfg.messageTypesLegal (cfg : Cfg) : Bool :=
  cfg.messageTypes.all (fun v => decide (v < 2 ^ cfg.wMsgType)) && decide cfg.messageTypes.Nodup

/-- R7: data-change tag values fit their field and are pairwise distinct. -/
def Cfg.dataChangeTagsLegal (cfg : Cfg) : Bool :=
  cfg.dataChangeTags.all (fun v => decide (v < 2 ^ cfg.wDcc)) && decide cfg.dataChangeTags.Nodup

/-- R7: every `FOOTER_SEQ` entry has an admissible width and a value that fits it. -/
def Cfg.footerLegal (cfg : Cfg) : Bool := cfg.footerSeq.all Field.legal

/-- A configuration is legal (R7). `N_PROG_WORDS >= 0` holds of every number. -/
def Cfg.legal (cfg : Cfg) : Bool :=
  cfg.storeLegal && cfg.fixedLegal && cfg.widthsLegal && cfg.devIdxLegal && cfg.countsLegal &&
    cfg.messageTypesLegal && cfg.dataChangeTagsLegal && cfg.footerLegal

/-- The one value the source fixes in R6's table that R7 does not repeat: `DEVIDX_LIMIT = 64` (R6, R122). -/
def Cfg.devIdxFixed (cfg : Cfg) : Bool := decide (cfg.devIdxLimit = 64)

end Sys2Proof
end

