-- ==== Sys2Proof/Safety.lean ====
section
/-! DEFINITION. The terms claims are stated in: the invariant of every reachable state, what the host can
observe (R27, R29), what it means that a field list was written (R43, R121), runs of several commands. -/

namespace Sys2Proof

open Sys2Proof.Machine

/-! ### The invariant -/

/-- Every listed cell is a cell of `DATA` (R50) and keeps its bit 7 at 0, which is no storage (R41). -/
def memInStore (maxBytes : Nat) (m : Machine.Memory) : Bool :=
  m.all (fun c => decide (c.1 < maxBytes) && !c.2.msb)

/-- What holds in every reachable state: the configuration is legal (R7), `WP` never exceeds the capacity
(R22), the storage is in canonical form and lies within `DATA` (R41, R50), and the device-index bound is the one
the source fixes (R6). -/
def Inv (s : State) : Prop :=
  s.cfg.legal = true ∧ s.wp ≤ s.cfg.capBits ∧ Machine.Memory.wf s.mem = true ∧
    memInStore s.cfg.maxBytes s.mem = true ∧ s.cfg.devIdxFixed = true

/-! ### Observation -/

/-- The states of two machines that the host cannot tell apart: same constants, same `WP`, same valid bits
(R29). Stale bits (R27), issued commands and the last response are left out. -/
def ObsEq (s t : State) : Prop :=
  s.cfg = t.cfg ∧ s.wp = t.wp ∧ ∀ k, k < s.wp → s.mem.bit k = t.mem.bit k

/-- Two outcomes the host cannot tell apart: the same kind of end, the same reason or the same response, and
states it cannot tell apart. -/
def SameOutcome : Result → Result → Prop
  | .next s, .next t => ObsEq s t ∧ s.response = t.response
  | .fault r, .fault r' => r = r'
  | .refused r, .refused r' => r = r'
  | _, _ => False

/-! ### What a command leaves alone and what it writes -/

/-- The constants, the commands not yet performed and the count of RESETs are as before. -/
def KeepsHost (s t : State) : Prop := t.cfg = s.cfg ∧ t.commands = s.commands ∧ t.resets = s.resets

/-- Everything but the `n` stream bits from `s.wp` on is as before in the storage: every other stream bit,
every cell that holds none of them, and bit 7 of every cell. -/
def KeepsOutside (n : Nat) (s t : State) : Prop :=
  (∀ k, ¬(s.wp ≤ k ∧ k < s.wp + n) → t.mem.bit k = s.mem.bit k) ∧
  (∀ i, (∀ k, s.wp ≤ k → k < s.wp + n → streamCell k ≠ i) → t.mem.read i = s.mem.read i) ∧
  (∀ i, (t.mem.read i).msb = (s.mem.read i).msb)

/-- The bits of a field in the order they go out: `v[0] .. v[w-1]` (R43). -/
def Field.bits (f : Field) : List Bool := (List.range f.width).map f.value.testBit

/-- The bits of a field list in stream order (R69). -/
def fieldBits (fields : List Field) : List Bool := fields.flatMap Field.bits

/-- The fields were appended: stream bits `old WP .. new WP - 1` hold them in order, `WP` has grown by
exactly their cost, and nothing else changed (R103, R120, R121). -/
def Wrote (fields : List Field) (s t : State) : Prop :=
  t.wp = s.wp + cost fields ∧
  (∀ j, j < cost fields → some (t.mem.bit (s.wp + j)) = (fieldBits fields)[j]?) ∧
  KeepsOutside (cost fields) s t ∧ KeepsHost s t

/-- The response a `PK.` command ends in (R26, R180). -/
def Answered (ok : Bool) (t : State) : Prop := t.response = some ⟨ok, 0, []⟩

/-- The end of a command that makes one pre-check (R120): every field of the list and `ok = 1` when the whole
list fits; else `ok = 0` and nothing but the response changed. -/
def EmitsOrFails (fields : List Field) (i : Instr) (s : State) : Prop :=
  (s.wp + cost fields ≤ s.cfg.capBits →
    ∃ t, exec i s = .next t ∧ Wrote fields s t ∧ Answered true t) ∧
  (s.cfg.capBits < s.wp + cost fields → exec i s = .next (s.answer ⟨false, 0, []⟩))

/-- The end of a command that makes several pre-checks (R147): the whole list and `ok = 1` when it fits; else
`ok = 0` and a state the host cannot tell from the one before, in which only the stale bits of the `k` chunks
that fitted, `chunkCost` bits each, may differ (R28). -/
def EmitsOrRollsBack (fields : List Field) (chunkCost k : Nat) (i : Instr) (s : State) : Prop :=
  (s.wp + cost fields ≤ s.cfg.capBits →
    ∃ t, exec i s = .next t ∧ Wrote fields s t ∧ Answered true t) ∧
  (s.cfg.capBits < s.wp + cost fields →
    ∃ t, exec i s = .next t ∧ ObsEq s t ∧ KeepsHost s t ∧ Answered false t ∧
      KeepsOutside (chunkCost * min k ((s.cfg.capBits - s.wp) / chunkCost)) s t)

/-- Commands that give up no valid bit at or below position `p` (R107): no RESET, no restore below `p`. -/
def KeepsBelow (p : Nat) (i : Instr) : Prop :=
  i ≠ .reset ∧ ∀ sp, i = .restore sp → p ≤ operandU sp

/-! ### Runs -/

/-- The commands performed one after another, up to the first that stops (R52). -/
def runAll : List Instr → State → Result
  | [], s => .next s
  | i :: is, s =>
    match exec i s with
    | .next t => runAll is t
    | .fault r => .fault r
    | .refused r => .refused r

/-- The responses the commands answer, in order, up to the first that stops. -/
def responses : List Instr → State → List Response
  | [], _ => []
  | i :: is, s =>
    match exec i s with
    | .next t => t.response.toList ++ responses is t
    | .fault _ => []
    | .refused _ => []

/-- A safe command (R204 rows 1 to 5): its contracts hold and the state is one a run can reach. -/
def SafeCommand (i : Instr) (s : State) : Prop := Inv s ∧ violation s i = none

end Sys2Proof
end

