-- ==== Sys2Proof/Certificates/Slice0/Obligations.lean ====
section
/-! DEFINITION. The statements for the provers. Each docstring names the rules of spec/ it formalises. Where a
statement asks for a legal configuration it is because the rules are stated for those only (R7); where it asks
for `s.wp ≤ s.cfg.capBits` it is because R22 holds in every reachable state (`StepKeepsInvariant`). -/

open Sys2Proof Sys2Proof.Machine

/-! ### Encoding and the command port -/

/-- R60, R62: the decoder reads from every encoded command that command, with every operand word. -/
def Obligations.DecodeEncodeRoundTrip : Prop :=
  ∀ i : Instr, decode (encode i) = .ok i

/-- R60, R62: command words written out in 95_test_vectors.md section 3 decode to the commands they stand for. -/
def Obligations.SpecWordsDecode : Prop :=
  decodeTableWord 104 0x00000000000000000000000000 = some .reset ∧
  decodeTableWord 104 0x01000000210000000000000000 = some (.hasCap 33) ∧
  decodeTableWord 104 0x02000000020000000300000000 = some (.write 2 3) ∧
  decodeTableWord 104 0x04000000070000000000000000 = some (.restore 7) ∧
  decodeTableWord 104 0x0A000001230000000000000000 = some (.devCtrl 0x123) ∧
  decodeTableWord 104 0x0DFFFFFFFF0000000000000000 = some (.skip (BitVec.ofInt 32 (-1))) ∧
  decodeTableWord 104 0x0F0000002000000021FFFFFFFB = some (.setRpt 0x20 0x21 (BitVec.ofInt 32 (-5)))

/-- R63, R185: the step refuses a command record as `ReservedOp` exactly when its `OP` is 0x06, 0x07 or 0x12
to 0x1F. -/
def Obligations.ReservedOpRefused : Prop :=
  ∀ (s : State) (c : Command) (rest : List Command), s.commands = c :: rest →
    ((c.op = 0x06 ∨ c.op = 0x07 ∨ 0x12 ≤ c.op.toNat) ↔ step s = .refused .reservedOp)

/-- R61: operand words and payloads that a command does not use are ignored, whatever they hold. -/
def Obligations.UnusedOperandsIgnored : Prop :=
  ∀ c d : Command, c.op = d.op →
    (c.op.toNat ∈ [0x00, 0x03, 0x05, 0x09] → decode c = decode d) ∧
    (c.op.toNat ∈ [0x01, 0x04, 0x08, 0x0A, 0x0B, 0x0C, 0x0D] → c.a = d.a → decode c = decode d) ∧
    (c.op.toNat = 0x02 → c.a = d.a → c.b = d.b → decode c = decode d) ∧
    (c.op.toNat ∈ [0x0E, 0x11] → c.a = d.a → c.payload = d.payload → decode c = decode d) ∧
    (c.op.toNat = 0x0F → c.a = d.a → c.b = d.b → c.c = d.c → decode c = decode d) ∧
    (c.op.toNat = 0x10 → c.payload = d.payload → decode c = decode d)

/-- R23, R18 (the queue is the model's, log 5): a step performs the next command the host issued, whole, and
takes it off the port. -/
def Obligations.StepRunsDecodedCommand : Prop :=
  ∀ (s : State) (c : Command) (rest : List Command) (i : Instr),
    s.commands = c :: rest → decode c = .ok i → step s = exec i { s with commands := rest }

/-- R16, R186, R191 (DEDUCED, log 7): with no command issued nothing happens. -/
def Obligations.IdleStepChangesNothing : Prop :=
  ∀ s : State, s.commands = [] → step s = .next s

/-! ### Reset, the invariant, whole-machine rules -/

/-- R31, R7, R22: the machine after reset has `WP = 0`, an empty Message and no response pending, and meets the
invariant. Its configuration is the model's choice (log 2, log 3). -/
def Obligations.ResetStateMeetsInvariant : Prop :=
  Inv State.reset ∧ State.reset.wp = 0 ∧ State.reset.message = [] ∧ State.reset.response = none

/-- R22, R41, R50: every step keeps the invariant: `WP` never exceeds `CAP_BITS`, the storage stays in
canonical form within `DATA` with bit 7 of every cell 0, the configuration stays legal. -/
def Obligations.StepKeepsInvariant : Prop :=
  ∀ s t : State, Inv s → step s = .next t → Inv t

/-- R25: no step writes a constant of the instance. The second clause is about the model's own queue of issued
commands (log 5) and its idle step (log 7), not a rule's: a step takes one command off it. -/
def Obligations.StepKeepsConstants : Prop :=
  ∀ s t : State, step s = .next t → t.cfg = s.cfg ∧ t.commands = s.commands.tail

/-- R187, R180: no command traps. The one fault is the model's own (log 11): reading out a store whose `WP` is
above its capacity, where no run comes. -/
def Obligations.OnlyReadOutBeyondStoreFaults : Prop :=
  ∀ (i : Instr) (s : State) (f : Fault), exec i s = .fault f ↔ i = .getData ∧ s.cfg.capBits < s.wp

/-- R27: two states that differ in stale bits only end a command alike: the same refusal, or the same response
and again two such states. -/
def Obligations.StaleBitsUnobservable : Prop :=
  ∀ (i : Instr) (s t : State), ObsEq s t → SameOutcome (exec i s) (exec i t)

/-- R27, R29: no sequence of commands answers differently because of stale bits. -/
def Obligations.ResponsesIgnoreStaleBits : Prop :=
  ∀ (is : List Instr) (s t : State), ObsEq s t → responses is s = responses is t

/-- R22: `WP` "never shrinks except via explicit restore to an earlier saved position", or RESET. -/
def Obligations.WritePositionNeverShrinks : Prop :=
  ∀ (i : Instr) (s t : State), exec i s = .next t → i ≠ .reset → (∀ sp, i ≠ .restore sp) → s.wp ≤ t.wp

/-- R121, R107(c): no command but RESET changes a valid bit that stays valid. -/
def Obligations.ValidBitsStay : Prop :=
  ∀ (i : Instr) (s t : State), exec i s = .next t → i ≠ .reset →
    ∀ k, k < s.wp → k < t.wp → t.mem.bit k = s.mem.bit k

/-- R43, R28, R40: the frame of every command but RESET. Outside the stream bits it writes, from `WP` on and
as many as `reach` computes (its cost when it fits, else the chunks that fitted; none for BB.HASCAP,
BB.CHECKPOINT, BB.RESTORE, BB.GETDATA and the trivial counts), no bit and no byte of the storage changes, and
the constants and the issued commands stay. -/
def Obligations.FrameOutsideReach : Prop :=
  ∀ (i : Instr) (s t : State), s.cfg.legal = true → exec i s = .next t → i ≠ .reset →
    KeepsOutside (reach s i) s t ∧ KeepsHost s t

/-- R22, R50, R120: no command but RESET writes beyond the store, rolled back or not: every stream bit from
`CAP_BITS` on and every cell from `MAX_BYTES` on reads as before. -/
def Obligations.WritesStayInStore : Prop :=
  ∀ (i : Instr) (s t : State), s.cfg.legal = true → s.wp ≤ s.cfg.capBits → exec i s = .next t → i ≠ .reset →
    (∀ k, s.cfg.capBits ≤ k → t.mem.bit k = s.mem.bit k) ∧
    ∀ n, s.cfg.maxBytes ≤ n → t.mem.read n = s.mem.read n

/-- R26, R100, R180: every performed command answers one response; only BB.GETDATA answers bytes, only
BB.HASCAP, BB.CHECKPOINT and BB.GETDATA a `val` other than 0, and only a `PK.` command `ok = 0`. -/
def Obligations.EveryCommandAnswers : Prop :=
  ∀ (i : Instr) (s t : State), exec i s = .next t → ∃ r, t.response = some r ∧
    (r.bytes ≠ [] → i = .getData) ∧
    (r.val ≠ 0 → i = .getData ∨ i = .checkpoint ∨ ∃ bits, i = .hasCap bits) ∧
    (r.ok = false → isPacker i = true)

/-- R21: `WP` fits its register of `W_POS` bits, and no narrower register holds every position. -/
def Obligations.WritePositionFitsRegister : Prop :=
  ∀ s : State, s.wp ≤ s.cfg.capBits → s.wp < 2 ^ s.cfg.wPos ∧
    ∀ w, (∀ p, p ≤ s.cfg.capBits → p < 2 ^ w) → s.cfg.wPos ≤ w

/-! ### The Bit Buffer commands -/

/-- R200, R31: RESET. What the storage holds afterwards is not said; what can be seen is: the Message is
empty, the whole capacity is free, and `BB.RESTORE 0` leaves the same observable state. -/
def Obligations.ResetEmptiesBuffer : Prop :=
  (∀ a b c p, decode ⟨Command.pack 0x00 a b c, p⟩ = .ok .reset) ∧
  ∀ s : State, ∃ t, exec .reset s = .next t ∧ t.wp = 0 ∧ t.response = some ⟨true, 0, []⟩ ∧ t.cfg = s.cfg ∧
    t.commands = s.commands ∧
    exec .getData t = .next (t.answer ⟨true, 0, []⟩) ∧
    (∀ n : Word, exec (.hasCap n) t =
      .next (t.answer ⟨true, if n.toNat ≤ s.cfg.capBits then 1 else 0, []⟩)) ∧
    ∃ u, exec (.restore 0) s = .next u ∧ ObsEq t u

/-- R101: BB.HASCAP, over the integers; nothing but the response changes. -/
def Obligations.HasCapAnswersCapacity : Prop :=
  (∀ a b c p, decode ⟨Command.pack 0x01 a b c, p⟩ = .ok (.hasCap a)) ∧
  ∀ (bits : Word) (s : State), exec (.hasCap bits) s =
    .next (s.answer ⟨true, if s.wp + bits.toNat ≤ s.cfg.capBits then 1 else 0, []⟩)

/-- R102, R103: BB.WRITE, its refusals in order, and the field it appends. -/
def Obligations.WriteAppendsField : Prop :=
  (∀ a b c p, decode ⟨Command.pack 0x02 a b c, p⟩ = .ok (.write a b)) ∧
  ∀ (value width : Word) (s : State), s.cfg.legal = true →
    (width.toNat = 0 ∨ 32 < width.toNat → exec (.write value width) s = .refused .badWidth) ∧
    (1 ≤ width.toNat → width.toNat ≤ 32 → 2 ^ width.toNat ≤ value.toNat →
      exec (.write value width) s = .refused .valueTooWide) ∧
    (1 ≤ width.toNat → width.toNat ≤ 32 → value.toNat < 2 ^ width.toNat →
      s.cfg.capBits < s.wp + width.toNat → exec (.write value width) s = .refused .writeWithoutCapacity) ∧
    (1 ≤ width.toNat → width.toNat ≤ 32 → value.toNat < 2 ^ width.toNat →
      s.wp + width.toNat ≤ s.cfg.capBits →
      ∃ t, exec (.write value width) s = .next t ∧ t.wp = s.wp + width.toNat ∧
        (∀ j, j < width.toNat → t.mem.bit (s.wp + j) = value.getLsbD j) ∧
        KeepsOutside width.toNat s t ∧ KeepsHost s t ∧ t.response = some ⟨true, 0, []⟩)

/-- R104: BB.CHECKPOINT answers `WP`, zero-extended to 32 bits; nothing but the response changes. -/
def Obligations.CheckpointReadsPosition : Prop :=
  (∀ a b c p, decode ⟨Command.pack 0x03 a b c, p⟩ = .ok .checkpoint) ∧
  ∀ s : State, s.cfg.legal = true → s.wp ≤ s.cfg.capBits →
    ∃ v : Word, v.toNat = s.wp ∧ exec .checkpoint s = .next (s.answer ⟨true, v, []⟩)

/-- R105: BB.RESTORE writes `WP` alone, and refuses a position above it. -/
def Obligations.RestoreRewindsPosition : Prop :=
  (∀ a b c p, decode ⟨Command.pack 0x04 a b c, p⟩ = .ok (.restore a)) ∧
  ∀ (sp : Word) (s : State),
    (sp.toNat ≤ s.wp → exec (.restore sp) s =
      .next { s with wp := sp.toNat, response := some ⟨true, 0, []⟩ }) ∧
    (s.wp < sp.toNat → exec (.restore sp) s = .refused .restoreForward)

/-- R106, R45: BB.GETDATA answers `LEN` and `LEN` bytes made of the valid bits, zero elsewhere; nothing but the
response changes. -/
def Obligations.GetDataReadsMessage : Prop :=
  (∀ a b c p, decode ⟨Command.pack 0x05 a b c, p⟩ = .ok .getData) ∧
  ∀ s : State, s.cfg.legal = true → s.wp ≤ s.cfg.capBits → ∃ (v : Word) (bs : List Byte),
    exec .getData s = .next (s.answer ⟨true, v, bs⟩) ∧ v.toNat = (s.wp + 6) / 7 ∧ bs.length = (s.wp + 6) / 7 ∧
    ∀ i (h : i < bs.length) (j : Nat), bs[i].getLsbD j =
      (decide (j < 7) && decide (7 * i + j < s.wp) && s.mem.bit (7 * i + j))

/-- R41, R46, R50: in every answer of BB.GETDATA bit 7 of each byte is 0, there are at most `MAX_BYTES` bytes,
and none exactly when `WP = 0`. -/
def Obligations.MessageBytesAreSevenBit : Prop :=
  ∀ (s t : State) (r : Response), s.cfg.legal = true → exec .getData s = .next t → t.response = some r →
    (∀ b ∈ r.bytes, b.msb = false) ∧ r.bytes.length ≤ s.cfg.maxBytes ∧ (r.bytes = [] ↔ s.wp = 0)

/-- R49: BB.HASCAP, BB.CHECKPOINT and BB.GETDATA are pure and idempotent. -/
def Obligations.QueriesIdempotent : Prop :=
  ∀ (i : Instr) (s t : State), i = .getData ∨ i = .checkpoint ∨ (∃ bits, i = .hasCap bits) →
    exec i s = .next t → exec i t = .next t ∧ t.wp = s.wp ∧ t.mem = s.mem ∧ KeepsHost s t

/-- R107(d) (an inference the spec marks as its own): BB.HASCAP n answers 1 exactly when BB.WRITE v, n would be
accepted. -/
def Obligations.HasCapDecidesWrite : Prop :=
  ∀ (value width : Word) (s : State), s.cfg.legal = true → 1 ≤ width.toNat → width.toNat ≤ 32 → value.toNat < 2 ^ width.toNat →
    (exec (.hasCap width) s = .next (s.answer ⟨true, 1, []⟩) ↔ ∃ t, exec (.write value width) s = .next t)

/-- R107(b), R188 (an inference the spec marks as its own): checkpoint and restore. Whatever accepted commands
come between, if none is RESET or a restore below the checkpoint, restoring the Saved Position is accepted and
gives a state the host cannot tell from the one checkpointed. -/
def Obligations.CheckpointRestoreRollsBack : Prop :=
  ∀ (is : List Instr) (s s' t : State) (r : Response), s.cfg.legal = true → s.wp ≤ s.cfg.capBits →
    exec .checkpoint s = .next s' → s'.response = some r → (∀ i ∈ is, KeepsBelow s.wp i) →
    runAll is s' = .next t → ∃ u, exec (.restore r.val) t = .next u ∧ ObsEq s u

/-- R105, R121 (the step that R107(b) and (e) rest on): a command that gives up nothing below position `p` keeps
`WP` at or above `p` and every bit below `p`. -/
def Obligations.BitsBelowPositionStay : Prop :=
  ∀ (i : Instr) (p : Nat) (s t : State), exec i s = .next t → KeepsBelow p i → p ≤ s.wp →
    p ≤ t.wp ∧ ∀ k, k < p → t.mem.bit k = s.mem.bit k

/-- R107(e) (an inference the spec marks as its own): a written field reads back in every later BB.GETDATA until
a RESET or a restore below its end. -/
def Obligations.WrittenFieldReadsBack : Prop :=
  ∀ (value width : Word) (is : List Instr) (s t u u' : State) (r : Response),
    exec (.write value width) s = .next t → (∀ i ∈ is, KeepsBelow (s.wp + width.toNat) i) →
    runAll is t = .next u → exec .getData u = .next u' → u'.response = some r →
    ∀ j, j < width.toNat →
      (r.bytes[(s.wp + j) / 7]?).map (fun b => b.getLsbD ((s.wp + j) % 7)) = some (value.getLsbD j)

/-! ### The packer's common contract -/

/-- R120, R121: every `PK.` command that is not refused fully applies, with `ok = 1`, or is a no-op to the host,
with `ok = 0`; and it applies exactly when its whole cost fits. -/
def Obligations.PackerAllOrNothing : Prop :=
  ∀ (i : Instr) (s : State), s.cfg.legal = true → s.wp ≤ s.cfg.capBits → isPacker i = true →
    violation s i = none →
    (s.wp + bitCost s.cfg i ≤ s.cfg.capBits →
      ∃ t, exec i s = .next t ∧ Wrote (layout s.cfg i) s t ∧ Answered true t) ∧
    (s.cfg.capBits < s.wp + bitCost s.cfg i →
      ∃ t, exec i s = .next t ∧ ObsEq s t ∧ t.message = s.message ∧ KeepsHost s t ∧ Answered false t)

/-- R180: a command answers `ok = 0` exactly when it is a `PK.` command whose cost exceeds the room left. -/
def Obligations.FailsExactlyWhenFull : Prop :=
  ∀ (i : Instr) (s t : State) (r : Response), s.cfg.legal = true → s.wp ≤ s.cfg.capBits →
    exec i s = .next t → t.response = some r →
    (r.ok = false ↔ isPacker i = true ∧ s.cfg.capBits < s.wp + bitCost s.cfg i)

/-- R181, R182: after `ok = 0` `WP` and every valid bit are as before, BB.GETDATA and BB.HASCAP answer as
before, and any next command ends as it would have. -/
def Obligations.FailureLeavesBuffer : Prop :=
  ∀ (i j : Instr) (s t : State) (r : Response), exec i s = .next t → t.response = some r → r.ok = false →
    t.wp = s.wp ∧ t.message = s.message ∧ KeepsHost s t ∧ (∀ k, k < s.wp → t.mem.bit k = s.mem.bit k) ∧
    SameOutcome (exec j s) (exec j t)

/-- R183 to R185, R189 (a non-byte element of a byte payload: log 15): a command is refused exactly when it
violates one of its contracts, for the first reason in the order of its tests, whatever the capacity. -/
def Obligations.RefusedExactlyOnViolation : Prop :=
  ∀ (i : Instr) (s : State) (r : Refusal), exec i s = .refused r ↔ violation s i = some r

/-- R189, R140: a count of 0 or less succeeds at any `WP`, without a look at the other operands, the payload or
the capacity. -/
def Obligations.TrivialCountsSucceed : Prop :=
  ∀ (n value lastValue : Word) (payload : List Word) (s : State), n.toInt ≤ 0 →
    exec (.skip n) s = .next (s.answer ⟨true, 0, []⟩) ∧
    exec (.setSeq n payload) s = .next (s.answer ⟨true, 0, []⟩) ∧
    exec (.setRpt value lastValue n) s = .next (s.answer ⟨true, 0, []⟩)

/-- R121, R107(a): over any run without RESET and BB.RESTORE, the bits written are the sum of the costs of the
commands that answered `ok = 1`, and never more than the capacity. -/
def Obligations.RunAccounting : Prop :=
  ∀ (is : List Instr) (s t : State), s.cfg.legal = true → s.wp ≤ s.cfg.capBits →
    (∀ i ∈ is, i ≠ .reset ∧ ∀ sp, i ≠ .restore sp) → runAll is s = .next t →
    t.wp = s.wp + ((is.zip (responses is s)).map
      (fun ir => if ir.2.ok then bitCost s.cfg ir.1 else 0)).sum ∧ t.wp ≤ s.cfg.capBits

/-- R206 (an inference the spec marks as its own): a caller that keeps room for the end tag and the footer can
close the block: the command, PK.ENDDC and PK.FOOTER all succeed. -/
def Obligations.RoomForTerminator : Prop :=
  ∀ (i : Instr) (isLast : Word) (s : State), s.cfg.legal = true → isPacker i = true → violation s i = none →
    s.wp + (bitCost s.cfg i + s.cfg.wDcc + cost s.cfg.footerSeq) ≤ s.cfg.capBits →
    ∃ t u v, exec i s = .next t ∧ Answered true t ∧ exec (.endDc isLast) t = .next u ∧ Answered true u ∧
      exec .footer u = .next v ∧ Answered true v

/-- R207: a BB.HASCAP answer of 1 stays true until a command raises `WP`. -/
def Obligations.HasCapStaysTrue : Prop :=
  ∀ (i : Instr) (n : Word) (s t : State), exec i s = .next t → t.wp ≤ s.wp →
    exec (.hasCap n) s = .next (s.answer ⟨true, 1, []⟩) →
    exec (.hasCap n) t = .next (t.answer ⟨true, 1, []⟩)

/-! ### Framing and control -/

/-- R122: PK.HEADER. The bound is `DEVIDX_LIMIT`, which R6 fixes at 64 (`Inv` holds it there). -/
def Obligations.HeaderWritesDeviceIndex : Prop :=
  (∀ a b c p, decode ⟨Command.pack 0x08 a b c, p⟩ = .ok (.header a)) ∧
  ∀ (d : Word) (s : State),
    (s.cfg.devIdxLimit ≤ d.toNat → exec (.header d) s = .refused .deviceIndexOutOfRange) ∧
    (d.toNat < s.cfg.devIdxLimit → EmitsOrFails [⟨d.toNat, s.cfg.wDevIdx⟩] (.header d) s)

/-- R123: PK.FOOTER. -/
def Obligations.FooterWritesTerminator : Prop :=
  (∀ a b c p, decode ⟨Command.pack 0x09 a b c, p⟩ = .ok .footer) ∧
  ∀ s : State, EmitsOrFails s.cfg.footerSeq .footer s

/-- R124: PK.DEVCTRL; a command that ends exactly at the capacity leaves BB.HASCAP 1 false. -/
def Obligations.DevCtrlWritesCommand : Prop :=
  (∀ a b c p, decode ⟨Command.pack 0x0A a b c, p⟩ = .ok (.devCtrl a)) ∧
  ∀ (cmd : Word) (s : State),
    (2 ^ s.cfg.wDevCmd ≤ cmd.toNat → exec (.devCtrl cmd) s = .refused .valueTooWide) ∧
    (cmd.toNat < 2 ^ s.cfg.wDevCmd →
      EmitsOrFails [⟨s.cfg.mtDevCmd, s.cfg.wMsgType⟩, ⟨cmd.toNat, s.cfg.wDevCmd⟩] (.devCtrl cmd) s) ∧
    (cmd.toNat < 2 ^ s.cfg.wDevCmd → s.wp + (s.cfg.wMsgType + s.cfg.wDevCmd) = s.cfg.capBits →
      ∃ t, exec (.devCtrl cmd) s = .next t ∧ Answered true t ∧
        exec (.hasCap 1) t = .next (t.answer ⟨true, 0, []⟩))

/-- R125: PK.BEGINDC. -/
def Obligations.BeginDcWritesPacketIndex : Prop :=
  (∀ a b c p, decode ⟨Command.pack 0x0B a b c, p⟩ = .ok (.beginDc a)) ∧
  ∀ (k : Word) (s : State),
    (2 ^ s.cfg.wPktIdx ≤ k.toNat → exec (.beginDc k) s = .refused .valueTooWide) ∧
    (k.toNat < 2 ^ s.cfg.wPktIdx →
      EmitsOrFails [⟨s.cfg.mtSharedDc, s.cfg.wMsgType⟩, ⟨k.toNat, s.cfg.wPktIdx⟩] (.beginDc k) s)

/-- R126: PK.ENDDC. Which tag a true `isLast` selects is the spec's own decision D12. -/
def Obligations.EndDcWritesTag : Prop :=
  (∀ a b c p, decode ⟨Command.pack 0x0C a b c, p⟩ = .ok (.endDc a)) ∧
  ∀ s : State, EmitsOrFails [⟨s.cfg.dccEndOfPacket, s.cfg.wDcc⟩] (.endDc 0) s ∧
    ∀ isLast : Word, isLast ≠ 0 → EmitsOrFails [⟨s.cfg.dccEndOfChanges, s.cfg.wDcc⟩] (.endDc isLast) s

/-! ### Skip and set-bytes -/

/-- R141, R140: PK.SKIP by tier. Above `MANY_MAX` it writes `k` maximal skip-many commands and one for the
remainder, `1 <= r <= MANY_MAX`, or rolls back. -/
def Obligations.SkipEncodesByTier : Prop :=
  (∀ a b c p, decode ⟨Command.pack 0x0D a b c, p⟩ = .ok (.skip a)) ∧
  ∀ (n : Word) (s : State), s.cfg.legal = true →
    (n.toInt ≤ 0 → exec (.skip n) s = .next (s.answer ⟨true, 0, []⟩)) ∧
    (1 ≤ n.toInt → n.toInt ≤ s.cfg.fewMax →
      EmitsOrFails [⟨s.cfg.dccSkipFew, s.cfg.wDcc⟩, ⟨n.toNat, s.cfg.wFew⟩] (.skip n) s) ∧
    (s.cfg.fewMax < n.toInt → n.toInt ≤ s.cfg.manyMax →
      EmitsOrFails [⟨s.cfg.dccSkipMany, s.cfg.wDcc⟩, ⟨n.toNat, s.cfg.wMany⟩] (.skip n) s) ∧
    ∀ k r : Nat, s.cfg.manyMax < n.toInt → k * s.cfg.manyMax + r = n.toNat → 1 ≤ r → r ≤ s.cfg.manyMax →
      EmitsOrRollsBack
        ((List.replicate k [⟨s.cfg.dccSkipMany, s.cfg.wDcc⟩, ⟨s.cfg.manyMax, s.cfg.wMany⟩]).flatten ++
          (if r ≤ s.cfg.fewMax then [⟨s.cfg.dccSkipFew, s.cfg.wDcc⟩, ⟨r, s.cfg.wFew⟩]
            else [⟨s.cfg.dccSkipMany, s.cfg.wDcc⟩, ⟨r, s.cfg.wMany⟩]))
        (s.cfg.wDcc + s.cfg.wMany) k (.skip n) s

/-- R142 (an inference the spec marks as its own): the total cost of a skip, and that it succeeds exactly when
that fits. -/
def Obligations.SkipClosedForm : Prop :=
  ∀ (n : Word) (s t : State) (k r : Nat), s.cfg.legal = true → 1 ≤ n.toInt →
    k = (n.toNat - 1) / s.cfg.manyMax → r = n.toNat - k * s.cfg.manyMax →
    exec (.skip n) s = .next t →
    1 ≤ r ∧ r ≤ s.cfg.manyMax ∧ k * s.cfg.manyMax + r = n.toNat ∧
    (Answered true t ↔ s.wp + (k * (s.cfg.wDcc + s.cfg.wMany) +
      (if r ≤ s.cfg.fewMax then s.cfg.wDcc + s.cfg.wFew else s.cfg.wDcc + s.cfg.wMany)) ≤ s.cfg.capBits)

/-- R143: PK.SETSEQ on a payload of bytes. -/
def Obligations.SetSeqWritesBytes : Prop :=
  (∀ a b c p, decode ⟨Command.pack 0x0E a b c, p⟩ = .ok (.setSeq a p)) ∧
  ∀ (num : Word) (payload : List Word) (s : State), isBytePayload payload = true →
    (num.toInt ≤ 0 → exec (.setSeq num payload) s = .next (s.answer ⟨true, 0, []⟩)) ∧
    (1 ≤ num.toInt → payload.length < num.toNat →
      exec (.setSeq num payload) s = .refused .payloadTooShort) ∧
    (1 ≤ num.toInt → num.toNat ≤ payload.length →
      (∃ v ∈ payload.take num.toNat, 2 ^ s.cfg.wByte ≤ v.toNat) →
      exec (.setSeq num payload) s = .refused .valueTooWide) ∧
    (1 ≤ num.toInt → num.toNat ≤ payload.length →
      (∀ v ∈ payload.take num.toNat, v.toNat < 2 ^ s.cfg.wByte) →
      EmitsOrFails (⟨s.cfg.dccSetSeq, s.cfg.wDcc⟩ :: (List.range num.toNat).flatMap (fun i =>
          [⟨(payload.getD i 0).toNat, s.cfg.wByte⟩, ⟨if i + 1 < num.toNat then 1 else 0, s.cfg.wCont⟩]))
        (.setSeq num payload) s)

/-- R143: the cost of PK.SETSEQ, that it succeeds exactly when it fits, and that a payload of bytes never has a
too wide element at a byte width of 8 or more. -/
def Obligations.SetSeqCost : Prop :=
  ∀ (num : Word) (payload : List Word) (s : State), isBytePayload payload = true → 8 ≤ s.cfg.wByte →
    1 ≤ num.toInt → num.toNat ≤ payload.length →
    ∃ t, exec (.setSeq num payload) s = .next t ∧
      (Answered true t ↔ s.wp + (s.cfg.wDcc + num.toNat * (s.cfg.wByte + s.cfg.wCont)) ≤ s.cfg.capBits)

/-- R144: PK.SETRPT by case, up to `MANY_MAX` copies. -/
def Obligations.SetRptEncodesByCase : Prop :=
  (∀ a b c p, decode ⟨Command.pack 0x0F a b c, p⟩ = .ok (.setRpt a b c)) ∧
  ∀ (v l num : Word) (s : State), s.cfg.legal = true →
    (num.toInt ≤ 0 → exec (.setRpt v l num) s = .next (s.answer ⟨true, 0, []⟩)) ∧
    (1 ≤ num.toInt → 2 ^ s.cfg.wByte ≤ v.toNat ∨ 2 ^ s.cfg.wByte ≤ l.toNat →
      exec (.setRpt v l num) s = .refused .valueTooWide) ∧
    (v.toNat < 2 ^ s.cfg.wByte → l.toNat < 2 ^ s.cfg.wByte →
      (num.toInt = 1 → EmitsOrFails [⟨s.cfg.dccSetSeq, s.cfg.wDcc⟩,
        ⟨if s.cfg.singleByteSource = .value then v.toNat else l.toNat, s.cfg.wByte⟩, ⟨0, s.cfg.wCont⟩]
        (.setRpt v l num) s) ∧
      (2 ≤ num.toInt → num.toInt ≤ s.cfg.fewMax → v = l → EmitsOrFails
        [⟨s.cfg.dccSetFewLast, s.cfg.wDcc⟩, ⟨num.toNat, s.cfg.wFew⟩] (.setRpt v l num) s) ∧
      (2 ≤ num.toInt → num.toInt ≤ s.cfg.fewMax → v ≠ l → EmitsOrFails
        [⟨s.cfg.dccSetFewValue, s.cfg.wDcc⟩, ⟨num.toNat, s.cfg.wFew⟩, ⟨v.toNat, s.cfg.wByte⟩]
        (.setRpt v l num) s) ∧
      (s.cfg.fewMax < num.toInt → 2 ≤ num.toInt → num.toInt ≤ s.cfg.manyMax → EmitsOrFails
        [⟨s.cfg.dccSetManyValue, s.cfg.wDcc⟩, ⟨num.toNat, s.cfg.wMany⟩, ⟨v.toNat, s.cfg.wByte⟩]
        (.setRpt v l num) s))

/-- R144 case 2, R147: above `MANY_MAX` copies PK.SETRPT writes `k` maximal chunks of `value` and then what it
writes for the remaining `r` copies, or rolls back. -/
def Obligations.SetRptSplitsLargeCounts : Prop :=
  ∀ (v l num : Word) (s : State) (k r : Nat), s.cfg.legal = true →
    v.toNat < 2 ^ s.cfg.wByte → l.toNat < 2 ^ s.cfg.wByte → s.cfg.manyMax < num.toInt →
    k * s.cfg.manyMax + r = num.toNat → 1 ≤ r → r ≤ s.cfg.manyMax →
    EmitsOrRollsBack
      ((List.replicate k [⟨s.cfg.dccSetManyValue, s.cfg.wDcc⟩, ⟨s.cfg.manyMax, s.cfg.wMany⟩,
          ⟨v.toNat, s.cfg.wByte⟩]).flatten ++
        layout s.cfg (.setRpt v l (BitVec.ofNat 32 r)))
      (s.cfg.wDcc + s.cfg.wMany + s.cfg.wByte) k (.setRpt v l num) s

/-- R145 (an inference the spec marks as its own): the total cost of PK.SETRPT, and that it succeeds exactly
when that fits. -/
def Obligations.SetRptClosedForm : Prop :=
  ∀ (v l num : Word) (s t : State) (k r : Nat), s.cfg.legal = true → 1 ≤ num.toInt →
    k = (num.toNat - 1) / s.cfg.manyMax → r = num.toNat - k * s.cfg.manyMax →
    exec (.setRpt v l num) s = .next t →
    1 ≤ r ∧ r ≤ s.cfg.manyMax ∧ k * s.cfg.manyMax + r = num.toNat ∧
    (Answered true t ↔ s.wp + (k * (s.cfg.wDcc + s.cfg.wMany + s.cfg.wByte) +
      (if r = 1 then s.cfg.wDcc + s.cfg.wByte + s.cfg.wCont
        else if s.cfg.fewMax < r then s.cfg.wDcc + s.cfg.wMany + s.cfg.wByte
        else if v = l then s.cfg.wDcc + s.cfg.wFew
        else s.cfg.wDcc + s.cfg.wFew + s.cfg.wByte)) ≤ s.cfg.capBits)

/-- R146: `lastValue` has no effect but through the comparison in the small tier: two last values that both
equal `value` or both differ from it end alike, and so do any two when the tail is in the large tier. With
`SINGLE_BYTE_SOURCE = value`. -/
def Obligations.LastValueOnlySelectsTag : Prop :=
  ∀ (v l l' num : Word) (s : State), s.cfg.singleByteSource = .value →
    l.toNat < 2 ^ s.cfg.wByte → l'.toNat < 2 ^ s.cfg.wByte →
    ((v = l ↔ v = l') → exec (.setRpt v l num) s = exec (.setRpt v l' num) s) ∧
    (s.cfg.legal = true → s.cfg.fewMax < tailCount s.cfg.manyMax num.toNat →
      exec (.setRpt v l num) s = exec (.setRpt v l' num) s)

/-- R144 case 1, R65: one copy of a byte is delegated to the explicit sequence. -/
def Obligations.SingleCopyIsSequence : Prop :=
  ∀ (v l : Word) (s : State), s.cfg.singleByteSource = .value → s.cfg.legal = true →
    v.toNat < 2 ^ 8 → v.toNat < 2 ^ s.cfg.wByte → l.toNat < 2 ^ s.cfg.wByte →
    exec (.setRpt v l 1) s = exec (.setSeq 1 [v]) s

/-- R147: a PK.SKIP or PK.SETRPT that fails leaves `WP`, the Message and every BB.HASCAP answer as before, even
when some of its chunks had been written. -/
def Obligations.MultiStepRollback : Prop :=
  ∀ (n v l bits : Word) (i : Instr) (s t : State), i = .skip n ∨ i = .setRpt v l n →
    exec i s = .next t → Answered false t →
    t.wp = s.wp ∧ t.message = s.message ∧ t.hasCap bits.toNat = s.hasCap bits.toNat ∧ KeepsHost s t ∧
      ∀ k, k < s.wp → t.mem.bit k = s.mem.bit k

/-- R148: in the small tier with `value == lastValue` the few-with-last-value tag is chosen, and what it writes
is shorter than the few-with-value and the many variant would be. At the default widths and tags (R6, log 2). -/
def Obligations.FewWithLastIsShortest : Prop :=
  ∀ (v num : Word) (maxBytes : Nat) (s : State), s.cfg = Config.defaults maxBytes → v.toNat < 256 →
    2 ≤ num.toInt → num.toInt ≤ 15 → s.wp + 7 ≤ s.cfg.capBits →
    ∃ t, exec (.setRpt v v num) s = .next t ∧ Wrote [⟨6, 3⟩, ⟨num.toNat, 4⟩] s t ∧ Answered true t ∧
      t.wp < s.wp + cost [⟨5, 3⟩, ⟨num.toNat, 4⟩, ⟨v.toNat, 8⟩] ∧
      t.wp < s.wp + cost [⟨7, 3⟩, ⟨num.toNat, 8⟩, ⟨v.toNat, 8⟩]

/-! ### Payload messages -/

/-- R170: PK.PROGEVT. -/
def Obligations.ProgEvtCopiesWords : Prop :=
  (∀ a b c p, decode ⟨Command.pack 0x10 a b c, p⟩ = .ok (.progEvt p)) ∧
  ∀ (payload : List Word) (s : State), s.cfg.legal = true →
    (payload.length < s.cfg.nProgWords → exec (.progEvt payload) s = .refused .payloadTooShort) ∧
    (s.cfg.nProgWords ≤ payload.length →
      EmitsOrFails (⟨s.cfg.mtProgEvt, s.cfg.wMsgType⟩ ::
        (payload.take s.cfg.nProgWords).map (fun w => ⟨w.toNat, 32⟩)) (.progEvt payload) s)

/-- R171: PK.FWCHUNK, its refusals in order, and what it writes. -/
def Obligations.FwChunkWritesPayload : Prop :=
  (∀ a b c p, decode ⟨Command.pack 0x11 a b c, p⟩ = .ok (.fwChunk a p)) ∧
  ∀ (size : Word) (payload : List Word) (s : State), s.cfg.legal = true →
    (2 ^ s.cfg.wFwSize ≤ size.toNat → exec (.fwChunk size payload) s = .refused .valueTooWide) ∧
    (size.toNat < 2 ^ s.cfg.wFwSize → payload.length < size.toNat →
      exec (.fwChunk size payload) s = .refused .payloadTooShort) ∧
    (size.toNat < 2 ^ s.cfg.wFwSize → size.toNat ≤ payload.length →
      (∃ v ∈ payload.take size.toNat, 2 ^ 7 ≤ v.toNat) →
      exec (.fwChunk size payload) s = .refused .valueTooWide) ∧
    (size.toNat < 2 ^ s.cfg.wFwSize → size.toNat ≤ payload.length →
      (∀ v ∈ payload.take size.toNat, v.toNat < 2 ^ 7) →
      EmitsOrFails (⟨s.cfg.mtFwPkt, s.cfg.wMsgType⟩ :: ⟨size.toNat, s.cfg.wFwSize⟩ ::
        (payload.take size.toNat).map (fun w => ⟨w.toNat, 7⟩)) (.fwChunk size payload) s)

/-- R171: with 7-bit tag and size fields and a byte-aligned start, the payload bytes stand unchanged in the
output bytes. -/
def Obligations.AlignedFwChunkBytes : Prop :=
  ∀ (size : Word) (payload : List Word) (s t : State), s.cfg.legal = true → s.cfg.wMsgType = 7 →
    s.cfg.wFwSize = 7 →
    s.wp % 7 = 0 → exec (.fwChunk size payload) s = .next t → Answered true t →
    ∀ i (h : i < payload.length), i < size.toNat →
      (t.out (s.wp / 7 + 2 + i)).toNat = payload[i].toNat

/-! ### The caller's protocol -/

/-- R203: how every command moves the life-cycle ghost. RESET leads to Empty. A failing command and the three
queries leave it. A header that is written leads from Empty to Framed, a footer from Framed or Building to
Finalized, any other packer command that writes a bit from Framed or Building to Building; each is a violation in
the other phases, and so is a raw BB.WRITE in any and a BB.RESTORE across the phase boundary. The ghost is the
model's own bookkeeping, and these of its points are the model's choice (log 14): where the boundary lies (the end
of the header for Framed and Building, of the footer for Finalized); that a restore not below it and a packer
command of no bits (a footer apart) leave the ghost; that only RESET leads back from a violation. -/
def Obligations.LifeCyclePhases : Prop :=
  ∀ (i : Instr) (g : Ghost) (s t : State), s.cfg.legal = true → s.wp ≤ s.cfg.capBits → exec i s = .next t →
    (i = .reset → ∀ ghost, phaseNext ghost i s t = some ⟨.empty, 0⟩) ∧
    (i ≠ .reset → phaseNext none i s t = none) ∧
    (Answered false t ∨ i = .getData ∨ i = .checkpoint ∨ (∃ bits, i = .hasCap bits) →
      phaseNext (some g) i s t = some g) ∧
    (Answered true t → (∃ d, i = .header d) →
      phaseNext (some g) i s t = if g.phase = .empty then some ⟨.framed, t.wp⟩ else none) ∧
    (Answered true t → i = .footer →
      phaseNext (some g) i s t =
        if g.phase = .framed ∨ g.phase = .building then some ⟨.finalized, t.wp⟩ else none) ∧
    (Answered true t → isPacker i = true → (∀ d, i ≠ .header d) → i ≠ .footer →
      phaseNext (some g) i s t =
        if bitCost s.cfg i = 0 then some g
        else if g.phase = .framed ∨ g.phase = .building then some ⟨.building, g.floor⟩ else none) ∧
    ((∃ value width, i = .write value width) → phaseNext (some g) i s t = none) ∧
    ∀ sp, i = .restore sp → phaseNext (some g) i s t = if sp.toNat < g.floor then none else some g

/-- R203 (the boundary is the model's, log 14): inside the protocol the phase boundary never lies above `WP`, so
that nothing the phase rests on is given up. -/
def Obligations.PhaseBoundaryStaysValid : Prop :=
  ∀ (i : Instr) (g g' : Ghost) (s t : State), exec i s = .next t → g.floor ≤ s.wp →
    phaseNext (some g) i s t = some g' → g'.floor ≤ t.wp
end

