-- ==== Sys2Proof/Laws/Encoding.lean ====
section
/-! SUPPORT. The fields of a packed command word read back (R60). -/

namespace Sys2Proof

@[simp] theorem Command.op_pack (op : OpCode) (a b c : Word) (p : List Word) :
    Command.op ⟨Command.pack op a b c, p⟩ = op := by
  apply BitVec.eq_of_getLsbD_eq
  intro i hi
  simp only [Command.op, Command.pack, BitVec.getLsbD_extractLsb', BitVec.getLsbD_append, hi, decide_true,
    Bool.true_and]
  rw [if_neg (by omega), if_neg (by omega), if_neg (by omega), show 96 + i - 32 - 32 - 32 = i by omega]

@[simp] theorem Command.a_pack (op : OpCode) (a b c : Word) (p : List Word) :
    Command.a ⟨Command.pack op a b c, p⟩ = a := by
  apply BitVec.eq_of_getLsbD_eq
  intro i hi
  simp only [Command.a, Command.pack, BitVec.getLsbD_extractLsb', BitVec.getLsbD_append, hi, decide_true,
    Bool.true_and]
  rw [if_neg (by omega), if_neg (by omega), if_pos (by omega), show 64 + i - 32 - 32 = i by omega]

@[simp] theorem Command.b_pack (op : OpCode) (a b c : Word) (p : List Word) :
    Command.b ⟨Command.pack op a b c, p⟩ = b := by
  apply BitVec.eq_of_getLsbD_eq
  intro i hi
  simp only [Command.b, Command.pack, BitVec.getLsbD_extractLsb', BitVec.getLsbD_append]
  rw [if_neg (by omega), if_pos (by omega)]
  simp [hi]

@[simp] theorem Command.c_pack (op : OpCode) (a b c : Word) (p : List Word) :
    Command.c ⟨Command.pack op a b c, p⟩ = c := by
  apply BitVec.eq_of_getLsbD_eq
  intro i hi
  simp only [Command.c, Command.pack, BitVec.getLsbD_extractLsb', BitVec.getLsbD_append]
  rw [if_pos (by omega)]
  simp [hi]

end Sys2Proof
end

