-- ==== Sys2Proof/Laws/Operands.lean ====
section
/-! SUPPORT. The operand forms and response values pushed down to arithmetic (R9, R26, R61). -/

namespace Sys2Proof.Machine

@[simp] theorem fits_iff (v w : Nat) : fits v w = true ↔ v < 2 ^ w := by simp [fits]

theorem fitsPay8_iff (w v : Nat) : fitsPay8 w v = true ↔ v < 2 ^ 8 ∧ v < 2 ^ w := by simp [fitsPay8, Config.wPay8]

@[simp] theorem hasCap_eq_true (s : State) (n : Nat) : s.hasCap n = true ↔ s.wp + n ≤ s.cfg.capBits := by
  simp [State.hasCap]

/-- A positive signed word is its unsigned value (R61). -/
theorem toInt_eq_toNat {n : Word} (h : 1 ≤ n.toInt) : n.toInt = n.toNat := by
  have hc := BitVec.toInt_eq_toNat_cond n
  have hlt := n.isLt
  split at hc <;> omega

/-- A positive count is the word's unsigned value. -/
theorem count_eq {n : Word} (h : 1 ≤ n.toInt) : count n = n.toNat := by
  unfold count operandS
  rw [toInt_eq_toNat h, Int.toNat_natCast]

theorem count_pos {n : Word} (h : ¬operandS n ≤ 0) : 1 ≤ count n := by unfold count; omega

theorem valBool_eq_one (b : Bool) : valBool b = 1 ↔ b = true := by cases b <;> decide

theorem valBool_hasCap (s : State) (n : Nat) :
    valBool (s.hasCap n) = if s.wp + n ≤ s.cfg.capBits then 1 else 0 := by
  simp [valBool]

theorem val32_toNat {n : Nat} (h : n < 2 ^ 32) : (val32 n).toNat = n := by
  rw [val32, if_pos h, BitVec.toNat_ofNat, Nat.mod_eq_of_lt h]

theorem mem_pay8 (payload : List Word) (n v : Nat) :
    v ∈ pay8 payload n ↔ ∃ i, i < n ∧ memRead payload i = v := by simp [pay8]

/-- Within its length a payload's elements are what the host passed. -/
theorem memRead_of_lt {payload : List Word} {i : Nat} (h : i < payload.length) :
    memRead payload i = payload[i].toNat := by simp [memRead, h]

/-- The first `n` elements of a payload that has as many, as a list. -/
theorem pay8_eq_take {payload : List Word} {n : Nat} (h : n ≤ payload.length) :
    pay8 payload n = (payload.take n).map BitVec.toNat := by
  apply List.ext_getElem
  · simp [pay8, h]
  · intro i h1 h2
    simp only [pay8, List.length_map, List.length_range] at h1
    simp [pay8, memRead_of_lt (show i < payload.length by omega)]

theorem pay32_eq_take {payload : List Word} {n : Nat} (h : n ≤ payload.length) :
    pay32 payload n = (payload.take n).map BitVec.toNat := pay8_eq_take h

end Sys2Proof.Machine
end

