-- ==== Sys2Proof/Laws/State.lean ====
section
/-! SUPPORT. One lemma per field per state update, each by rfl, so that no proof unfolds a record update. -/

namespace Sys2Proof.Machine

@[simp] theorem State.setWp_cfg (s : State) (p : Nat) : (s.setWp p).cfg = s.cfg := rfl
@[simp] theorem State.setWp_wp (s : State) (p : Nat) : (s.setWp p).wp = p := rfl
@[simp] theorem State.setWp_mem (s : State) (p : Nat) : (s.setWp p).mem = s.mem := rfl
@[simp] theorem State.setWp_commands (s : State) (p : Nat) : (s.setWp p).commands = s.commands := rfl
@[simp] theorem State.setWp_response (s : State) (p : Nat) : (s.setWp p).response = s.response := rfl
@[simp] theorem State.setWp_resets (s : State) (p : Nat) : (s.setWp p).resets = s.resets := rfl

@[simp] theorem State.answer_cfg (s : State) (r : Response) : (s.answer r).cfg = s.cfg := rfl
@[simp] theorem State.answer_wp (s : State) (r : Response) : (s.answer r).wp = s.wp := rfl
@[simp] theorem State.answer_mem (s : State) (r : Response) : (s.answer r).mem = s.mem := rfl
@[simp] theorem State.answer_commands (s : State) (r : Response) : (s.answer r).commands = s.commands := rfl
@[simp] theorem State.answer_response (s : State) (r : Response) : (s.answer r).response = some r := rfl
@[simp] theorem State.answer_resets (s : State) (r : Response) : (s.answer r).resets = s.resets := rfl

@[simp] theorem State.append_cfg (s : State) (f : Field) : (s.append f).cfg = s.cfg := rfl
@[simp] theorem State.append_wp (s : State) (f : Field) : (s.append f).wp = s.wp + f.width := rfl
@[simp] theorem State.append_mem (s : State) (f : Field) :
    (s.append f).mem = s.mem.writeField s.wp f.value f.width := rfl
@[simp] theorem State.append_commands (s : State) (f : Field) : (s.append f).commands = s.commands := rfl
@[simp] theorem State.append_response (s : State) (f : Field) : (s.append f).response = s.response := rfl
@[simp] theorem State.append_resets (s : State) (f : Field) : (s.append f).resets = s.resets := rfl

@[simp] theorem State.reset_cfg : State.reset.cfg = Config.defaults Config.resetMaxBytes := rfl
@[simp] theorem State.reset_wp : State.reset.wp = 0 := rfl
@[simp] theorem State.reset_mem : State.reset.mem = [] := rfl
@[simp] theorem State.reset_commands : State.reset.commands = [] := rfl
@[simp] theorem State.reset_response : State.reset.response = none := rfl
@[simp] theorem State.reset_resets : State.reset.resets = 0 := rfl

@[simp] theorem State.fresh_cfg (s : State) : s.fresh.cfg = s.cfg := rfl
@[simp] theorem State.fresh_wp (s : State) : s.fresh.wp = 0 := rfl
@[simp] theorem State.fresh_mem (s : State) : s.fresh.mem = Memory.unspecified s.resets s.cfg.maxBytes := rfl
@[simp] theorem State.fresh_commands (s : State) : s.fresh.commands = s.commands := rfl
@[simp] theorem State.fresh_response (s : State) : s.fresh.response = s.response := rfl
@[simp] theorem State.fresh_resets (s : State) : s.fresh.resets = s.resets + 1 := rfl

@[simp] theorem State.appendAll_nil (s : State) : s.appendAll [] = s := rfl
@[simp] theorem State.appendAll_cons (s : State) (f : Field) (fs : List Field) :
    s.appendAll (f :: fs) = (s.append f).appendAll fs := rfl

end Sys2Proof.Machine
end

