-- ==== Sys2Proof/Laws/Memory.lean ====
section
/-! SUPPORT. The laws of the storage: a read after a write, the canonical form, the stream bits of R42 and the
field write of R11 and R43. -/

namespace Sys2Proof.Machine

/-! ### Cells -/

theorem Memory.read_eq_of_no_cell {m : Memory} {i : Nat} (h : ∀ c ∈ m, c.1 ≠ i) :
    m.read i = unwrittenCell := by
  induction m with
  | nil => rfl
  | cons c m ih =>
    obtain ⟨a, b⟩ := c
    have ha : a ≠ i := h (a, b) (by simp)
    simp [Memory.read, ha, ih (fun c hc => h c (by simp [hc]))]

theorem Memory.erase_no_cell (m : Memory) (i : Nat) : ∀ c ∈ m.erase i, c.1 ≠ i := by
  simp [Memory.erase]

theorem Memory.erase_cons (a : Nat) (b : Byte) (m : Memory) (i : Nat) :
    Memory.erase ((a, b) :: m) i = if a = i then m.erase i else (a, b) :: m.erase i := by
  by_cases h : a = i <;> simp [Memory.erase, h]

theorem Memory.read_erase (m : Memory) (i j : Nat) :
    (m.erase i).read j = if i = j then unwrittenCell else m.read j := by
  induction m with
  | nil => simp [Memory.erase, Memory.read]
  | cons c m ih =>
    obtain ⟨a, b⟩ := c
    rw [Memory.erase_cons]
    by_cases hai : a = i
    · subst hai
      rw [if_pos rfl, ih]
      split <;> simp_all [Memory.read]
    · by_cases hij : i = j
      · subst hij; simp [hai, Memory.read, ih]
      · simp [hai, hij, Memory.read, ih]

theorem Memory.read_insert {m : Memory} {i : Nat} (h : ∀ c ∈ m, c.1 ≠ i) (v : Byte) (j : Nat) :
    (m.insert i v).read j = if i = j then v else m.read j := by
  induction m with
  | nil => simp [Memory.insert, Memory.read]
  | cons c m ih =>
    obtain ⟨a, b⟩ := c
    have ha : a ≠ i := h (a, b) (by simp)
    have hm := ih (fun c hc => h c (by simp [hc]))
    simp only [Memory.insert]
    split
    · simp [Memory.read]
    · by_cases hij : i = j
      · subst hij; simp [Memory.read, ha, hm]
      · simp [Memory.read, hij, hm]

/-- A cell reads back what was written last; every other cell is left alone. -/
theorem Memory.read_write (m : Memory) (i j : Nat) (v : Byte) :
    (m.write i v).read j = if i = j then v else m.read j := by
  unfold Memory.write
  split
  · rename_i hv; rw [Memory.read_erase, hv]
  · rw [Memory.read_insert (m.erase_no_cell i), Memory.read_erase]
    split <;> rfl

/-! ### The canonical form and the extent of the store -/

theorem Memory.wf_iff (m : Memory) : m.wf = true ↔
    m.Pairwise (fun c d => c.1 < d.1) ∧ ∀ c ∈ m, c.2 ≠ unwrittenCell := by
  simp [Memory.wf]

theorem Memory.mem_insert {m : Memory} {i : Nat} {v : Byte} {c : Host.Cell} :
    c ∈ m.insert i v ↔ c = (i, v) ∨ c ∈ m := by
  induction m with
  | nil => simp [Memory.insert]
  | cons d m ih =>
    obtain ⟨a, b⟩ := d
    simp only [Memory.insert]
    split
    · simp
    · simp only [List.mem_cons, ih]; tauto

theorem Memory.pairwise_insert {m : Memory} {i : Nat} (v : Byte)
    (h : m.Pairwise (fun c d => c.1 < d.1)) (hi : ∀ c ∈ m, c.1 ≠ i) :
    (m.insert i v).Pairwise (fun c d => c.1 < d.1) := by
  induction m with
  | nil => simp [Memory.insert]
  | cons d m ih =>
    obtain ⟨a, b⟩ := d
    rw [List.pairwise_cons] at h
    have ha : a ≠ i := hi (a, b) (by simp)
    simp only [Memory.insert]
    split
    · rename_i hlt
      refine List.pairwise_cons.2 ⟨?_, List.pairwise_cons.2 h⟩
      intro c hc
      rcases List.mem_cons.1 hc with rfl | hc
      · exact hlt
      · exact lt_trans hlt (h.1 c hc)
    · refine List.pairwise_cons.2 ⟨?_, ih h.2 (fun c hc => hi c (by simp [hc]))⟩
      intro c hc
      rcases Memory.mem_insert.1 hc with rfl | hc
      · simp only; omega
      · exact h.1 c hc

theorem Memory.mem_write {m : Memory} {i : Nat} {v : Byte} {c : Host.Cell} (h : c ∈ m.write i v) :
    (c = (i, v) ∧ v ≠ unwrittenCell) ∨ c ∈ m := by
  unfold Memory.write at h
  split at h
  · exact .inr (List.mem_of_mem_filter h)
  · rcases Memory.mem_insert.1 h with h | h
    · exact .inl ⟨h, by assumption⟩
    · exact .inr (List.mem_of_mem_filter h)

/-- Writing a cell keeps the canonical form. -/
theorem Memory.wf_write {m : Memory} (h : m.wf = true) (i : Nat) (v : Byte) :
    (m.write i v).wf = true := by
  rw [Memory.wf_iff] at h ⊢
  refine ⟨?_, ?_⟩
  · have he : (m.erase i).Pairwise (fun c d => c.1 < d.1) := h.1.filter _
    unfold Memory.write
    split
    · exact he
    · exact Memory.pairwise_insert v he (m.erase_no_cell i)
  · intro c hc
    rcases Memory.mem_write hc with ⟨rfl, hv⟩ | hc
    · exact hv
    · exact h.2 c hc

theorem memInStore_iff (n : Nat) (m : Memory) :
    memInStore n m = true ↔ ∀ c ∈ m, c.1 < n ∧ c.2.msb = false := by
  simp only [memInStore, List.all_eq_true, Bool.and_eq_true, decide_eq_true_eq, Bool.not_eq_true']

theorem memInStore_write {n : Nat} {m : Memory} (h : memInStore n m = true) {i : Nat} {v : Byte}
    (hi : i < n) (hv : v.msb = false) : memInStore n (m.write i v) = true := by
  rw [memInStore_iff] at h ⊢
  intro c hc
  rcases Memory.mem_write hc with ⟨rfl, -⟩ | hc
  · exact ⟨hi, hv⟩
  · exact h c hc

/-- A RESET leaves the storage in canonical form, whatever its cells hold. -/
theorem Memory.wf_unspecified (draw n : Nat) : (Memory.unspecified draw n).wf = true := by
  rw [Memory.wf_iff]
  refine ⟨List.Pairwise.filter _ ?_, fun c hc => by simpa using (List.mem_filter.1 hc).2⟩
  rw [List.pairwise_map]
  exact List.pairwise_lt_range

/-- A RESET leaves the storage within `DATA`. -/
theorem memInStore_unspecified (draw n : Nat) : memInStore n (Memory.unspecified draw n) = true := by
  rw [memInStore_iff]
  intro c hc
  obtain ⟨i, hi, rfl⟩ := List.mem_map.1 (List.mem_filter.1 hc).1
  exact ⟨List.mem_range.1 hi, by simp [BitVec.msb_setWidth]⟩

theorem memInStore_msb {n : Nat} {m : Memory} (h : memInStore n m = true) (i : Nat) :
    (m.read i).msb = false := by
  rw [memInStore_iff] at h
  induction m with
  | nil => simp [Memory.read]
  | cons c m ih =>
    obtain ⟨a, b⟩ := c
    simp only [Memory.read]
    split
    · exact (h (a, b) (by simp)).2
    · exact ih (fun c hc => h c (by simp [hc]))

/-! ### Bits of a cell -/

theorem getLsbD_setBit (x : Byte) {j : Nat} (hj : j < 8) (b : Bool) (l : Nat) :
    (setBit x j b).getLsbD l = if l = j then b else x.getLsbD l := by
  have hp : (BitVec.ofNat 8 (2 ^ j)).getLsbD l = (decide (l < 8) && decide (j = l)) := by
    rw [BitVec.getLsbD_ofNat, Nat.testBit_two_pow]
  unfold setBit
  generalize BitVec.ofNat 8 (2 ^ j) = y at hp ⊢
  have hx : ¬l < 8 → x.getLsbD l = false := fun h => BitVec.getLsbD_of_ge x l (by omega)
  by_cases hl : l = j
  · subst hl; cases b <;> simp [hp, hj]
  · by_cases h8 : l < 8 <;> cases b <;> simp_all [Ne.symm hl]

theorem msb_setBit (x : Byte) {j : Nat} (hj : j < 7) (b : Bool) : (setBit x j b).msb = x.msb := by
  rw [BitVec.msb_eq_getLsbD_last, BitVec.msb_eq_getLsbD_last, getLsbD_setBit x (by omega)]
  simp; omega

/-! ### Stream bits -/

theorem streamPos_lt (k : Nat) : streamPos k < 7 := Nat.mod_lt _ (by decide)

theorem stream_ext {k l : Nat} (hc : streamCell k = streamCell l) (hp : streamPos k = streamPos l) : k = l := by
  unfold streamCell streamPos Config.cellBits at *
  omega

@[simp] theorem streamCell_index {i j : Nat} (hj : j < 7) : streamCell (streamIndex i j) = i := by
  unfold streamCell streamIndex Config.cellBits; omega

@[simp] theorem streamPos_index {i j : Nat} (hj : j < 7) : streamPos (streamIndex i j) = j := by
  unfold streamPos streamIndex Config.cellBits; omega

theorem streamIndex_cell_pos (k : Nat) : streamIndex (streamCell k) (streamPos k) = k := by
  unfold streamCell streamPos streamIndex Config.cellBits; omega

theorem streamCell_lt {k n : Nat} (h : k < n * Config.cellBits) : streamCell k < n := by
  unfold streamCell Config.cellBits at *; omega

/-- Setting one stream bit sets it and no other (R43). -/
theorem Memory.bit_setStreamBit (m : Memory) (k l : Nat) (b : Bool) :
    (m.setStreamBit k b).bit l = if l = k then b else m.bit l := by
  unfold Memory.bit Memory.setStreamBit
  rw [Memory.read_write]
  have hk := streamPos_lt k
  by_cases hc : streamCell k = streamCell l
  · rw [if_pos hc, getLsbD_setBit _ (by omega)]
    by_cases hp : streamPos l = streamPos k
    · rw [if_pos hp, if_pos (stream_ext hc.symm hp)]
    · rw [if_neg hp, if_neg (fun h => hp (by rw [h])), hc]
  · rw [if_neg hc, if_neg (fun h => hc (by rw [h]))]

theorem Memory.read_setStreamBit_of_ne {m : Memory} {k i : Nat} (h : streamCell k ≠ i) (b : Bool) :
    (m.setStreamBit k b).read i = m.read i := by
  simp [Memory.setStreamBit, Memory.read_write, h]

theorem Memory.msb_setStreamBit (m : Memory) (k i : Nat) (b : Bool) :
    ((m.setStreamBit k b).read i).msb = (m.read i).msb := by
  rw [Memory.setStreamBit, Memory.read_write]
  split
  · rename_i h; rw [msb_setBit _ (streamPos_lt k), h]
  · rfl

/-! ### A field write -/

/-- `MemWrite` (R11): the `w` stream bits from `k` on become the field's bits, all others stay. -/
theorem Memory.bit_writeField (m : Memory) (k value w l : Nat) :
    (m.writeField k value w).bit l =
      if k ≤ l ∧ l < k + w then value.testBit (l - k) else m.bit l := by
  induction w with
  | zero => rw [if_neg (by omega)]; rfl
  | succ w ih =>
    rw [Memory.writeField, Memory.bit_setStreamBit, ih, fieldBit]
    by_cases hl : l = k + w
    · subst hl; simp
    · rw [if_neg hl]
      by_cases h : k ≤ l ∧ l < k + w
      · rw [if_pos h, if_pos (by omega)]
      · rw [if_neg h, if_neg (by omega)]

theorem Memory.read_writeField_of_outside {m : Memory} {k value w i : Nat}
    (h : ∀ l, k ≤ l → l < k + w → streamCell l ≠ i) : (m.writeField k value w).read i = m.read i := by
  induction w with
  | zero => rfl
  | succ w ih =>
    rw [Memory.writeField, Memory.read_setStreamBit_of_ne (h _ (by omega) (by omega))]
    exact ih (fun l h1 h2 => h l h1 (by omega))

theorem Memory.msb_writeField (m : Memory) (k value w i : Nat) :
    ((m.writeField k value w).read i).msb = (m.read i).msb := by
  induction w with
  | zero => rfl
  | succ w ih => rw [Memory.writeField, Memory.msb_setStreamBit, ih]

theorem Memory.wf_writeField {m : Memory} (h : m.wf = true) (k value w : Nat) :
    (m.writeField k value w).wf = true := by
  induction w with
  | zero => exact h
  | succ w ih => exact Memory.wf_write ih _ _

/-- A field write that ends within the capacity stays within the store. -/
theorem memInStore_writeField {n : Nat} {m : Memory} (h : memInStore n m = true) {k value w : Nat}
    (hk : k + w ≤ n * Config.cellBits) : memInStore n (m.writeField k value w) = true := by
  induction w with
  | zero => exact h
  | succ w ih =>
    have ih := ih (by omega)
    refine memInStore_write ih (streamCell_lt (by omega)) ?_
    rw [msb_setBit _ (streamPos_lt _)]
    exact memInStore_msb ih _

end Sys2Proof.Machine
end

