-- ==== Sys2Proof/Laws/WellFormed.lean ====
section
/-! SUPPORT. What the legality of a configuration (R7) gives, so that no proof unfolds it. -/

namespace Sys2Proof

/-- The parameters that have one value in every legal configuration. -/
theorem Cfg.legal_fixed {cfg : Cfg} (h : cfg.legal = true) :
    cfg.bitsPerByte = 7 ∧ cfg.maxWidth = 32 ∧ cfg.wCont = 1 ∧ cfg.wWord32 = 32 ∧ cfg.wPay7 = 7 := by
  simp only [Cfg.legal, Bool.and_eq_true] at h
  simpa [Cfg.fixedLegal] using h.1.1.1.1.1.1.2

theorem Cfg.legal_counts {cfg : Cfg} (h : cfg.legal = true) :
    1 ≤ cfg.fewMax ∧ cfg.fewMax < cfg.manyMax ∧ cfg.fewMax ≤ 2 ^ cfg.wFew - 1 ∧
      cfg.manyMax ≤ 2 ^ cfg.wMany - 1 := by
  simp only [Cfg.legal, Bool.and_eq_true] at h
  simpa only [Cfg.countsLegal, decide_eq_true_eq] using h.1.1.1.2

/-- Every width of the table is in `1 .. 32`. -/
theorem Cfg.legal_width {cfg : Cfg} (h : cfg.legal = true) {w : Nat} (hw : w ∈ cfg.widths) : 1 ≤ w ∧ w ≤ 32 := by
  have h32 := (Cfg.legal_fixed h).2.1
  simp only [Cfg.legal, Bool.and_eq_true] at h
  have := List.all_eq_true.1 h.1.1.1.1.1.2 w hw
  rw [h32] at this
  simpa using this

/-- `CAP_BITS = MAX_BYTES * 7` (R25). -/
theorem Cfg.legal_capBits {cfg : Cfg} (h : cfg.legal = true) : cfg.capBits = cfg.maxBytes * 7 := by
  rw [Cfg.capBits, (Cfg.legal_fixed h).1]

/-- Every position of a legal store fits 32 bits, `W_POS` being one of the widths. -/
theorem Cfg.legal_capBits_lt {cfg : Cfg} (h : cfg.legal = true) : cfg.capBits < 2 ^ 32 := by
  have hw : cfg.wPos ≤ 32 := (Cfg.legal_width h (by simp [Cfg.widths])).2
  have h1 : cfg.capBits + 1 ≤ 2 ^ cfg.wPos := Nat.le_pow_clog (by decide) _
  exact Nat.lt_of_succ_le (h1.trans (Nat.pow_le_pow_right (by decide) hw))

end Sys2Proof
end

