-- ==== Sys2Proof/Laws/Ops.lean ====
section
/-! SUPPORT. One lemma per shared operation that says everything it can do: appending a field list, Emit
(R120), the split emission and its rollback (R141, R144, R147), the read-out (R45, R46). -/

namespace Sys2Proof.Machine

/-! ### Costs and field bits -/

@[simp] theorem cost_nil : cost [] = 0 := rfl
@[simp] theorem cost_cons (f : Field) (fs : List Field) : cost (f :: fs) = f.width + cost fs := by simp [cost]
@[simp] theorem cost_append (fs gs : List Field) : cost (fs ++ gs) = cost fs + cost gs := by simp [cost]

theorem cost_replicate (k : Nat) (fs : List Field) : cost (List.replicate k fs).flatten = k * cost fs := by
  induction k with
  | zero => simp
  | succ k ih => simp [List.replicate_succ, ih, Nat.succ_mul, Nat.add_comm]

theorem cost_map_const (l : List Nat) (w : Nat) : cost (l.map (fun v => ⟨v, w⟩)) = l.length * w := by
  induction l with
  | nil => simp
  | cons v l ih => simp [ih, Nat.succ_mul, Nat.add_comm]

@[simp] theorem fieldBits_nil : fieldBits [] = [] := rfl
@[simp] theorem fieldBits_cons (f : Field) (fs : List Field) :
    fieldBits (f :: fs) = f.bits ++ fieldBits fs := by simp [fieldBits]
@[simp] theorem fieldBits_append (fs gs : List Field) :
    fieldBits (fs ++ gs) = fieldBits fs ++ fieldBits gs := by simp [fieldBits]

@[simp] theorem Field.length_bits (f : Field) : f.bits.length = f.width := by simp [Field.bits]

@[simp] theorem length_fieldBits (fs : List Field) : (fieldBits fs).length = cost fs := by
  induction fs with
  | nil => rfl
  | cons f fs ih => simp [ih]

/-! ### Appending -/

@[simp] theorem State.appendAll_cfg (s : State) (fs : List Field) : (s.appendAll fs).cfg = s.cfg := by
  induction fs generalizing s with
  | nil => rfl
  | cons f fs ih => simp [ih]

@[simp] theorem State.appendAll_commands (s : State) (fs : List Field) :
    (s.appendAll fs).commands = s.commands := by
  induction fs generalizing s with
  | nil => rfl
  | cons f fs ih => simp [ih]

@[simp] theorem State.appendAll_resets (s : State) (fs : List Field) :
    (s.appendAll fs).resets = s.resets := by
  induction fs generalizing s with
  | nil => rfl
  | cons f fs ih => simp [ih]

@[simp] theorem State.appendAll_wp (s : State) (fs : List Field) : (s.appendAll fs).wp = s.wp + cost fs := by
  induction fs generalizing s with
  | nil => rfl
  | cons f fs ih => simp [ih, Nat.add_assoc]

theorem State.appendAll_append (s : State) (fs gs : List Field) :
    s.appendAll (fs ++ gs) = (s.appendAll fs).appendAll gs := by
  simp [State.appendAll, List.foldl_append]

end Sys2Proof.Machine

namespace Sys2Proof

open Sys2Proof.Machine

theorem KeepsHost.refl (s : State) : KeepsHost s s := ⟨rfl, rfl, rfl⟩

theorem KeepsOutside.refl (n : Nat) (s : State) : KeepsOutside n s s :=
  ⟨fun _ _ => rfl, fun _ _ => rfl, fun _ => rfl⟩

theorem Wrote.nil (s : State) : Wrote [] s s :=
  ⟨rfl, fun j h => absurd h (Nat.not_lt_zero j), KeepsOutside.refl 0 s, KeepsHost.refl s⟩

/-- Writing one field list after another writes the two in order. -/
theorem Wrote.trans {fs gs : List Field} {s t u : State} (h : Wrote fs s t) (h' : Wrote gs t u) :
    Wrote (fs ++ gs) s u := by
  obtain ⟨hwp, hbits, ⟨hb, hc, hm⟩, hk⟩ := h
  obtain ⟨hwp', hbits', ⟨hb', hc', hm'⟩, hk'⟩ := h'
  refine ⟨by simp [hwp', hwp, Nat.add_assoc], ?_, ⟨?_, ?_, ?_⟩, hk'.1.trans hk.1, hk'.2.1.trans hk.2.1,
    hk'.2.2.trans hk.2.2⟩
  · intro j hj
    rw [fieldBits_append]
    by_cases hlt : j < cost fs
    · rw [hb' _ (by omega), List.getElem?_append_left (by simpa using hlt)]
      exact hbits j hlt
    · have hj' : j - cost fs < cost gs := by rw [cost_append] at hj; omega
      rw [List.getElem?_append_right (by simpa using hlt), length_fieldBits, ← hbits' _ hj', hwp]
      congr 2; omega
  · intro k hk
    rw [cost_append] at hk
    rw [hb' k (by omega), hb k (by omega)]
  · intro i hi
    rw [cost_append] at hi
    rw [hc' i (fun k h1 h2 => hi k (by omega) (by omega)), hc i (fun k h1 h2 => hi k h1 (by omega))]
  · intro i; rw [hm', hm]

theorem Wrote.append (s : State) (f : Field) : Wrote [f] s (s.append f) := by
  refine ⟨by simp, ?_, ⟨?_, ?_, ?_⟩, rfl, rfl, rfl⟩
  · intro j hj
    have hj : j < f.width := by simpa using hj
    simp [Memory.bit_writeField, hj, Field.bits]
  · intro k hk
    have hk : ¬(s.wp ≤ k ∧ k < s.wp + f.width) := by simpa using hk
    simp only [State.append_mem, Memory.bit_writeField, if_neg hk]
  · intro i hi
    exact Memory.read_writeField_of_outside (fun l h1 h2 => hi l h1 (by simpa using h2))
  · intro i; exact Memory.msb_writeField _ _ _ _ _

/-- Appending a field list writes it (R103, R121). -/
theorem Wrote.appendAll (s : State) (fs : List Field) : Wrote fs s (s.appendAll fs) := by
  induction fs generalizing s with
  | nil => exact Wrote.nil s
  | cons f fs ih => exact (Wrote.append s f).trans (ih (s.append f))

/-- A response changes nothing that writing speaks of. -/
theorem Wrote.answer {fs : List Field} {s t : State} (h : Wrote fs s t) (r : Response) :
    Wrote fs s (t.answer r) := h

end Sys2Proof

namespace Sys2Proof.Machine

/-! ### Emit -/

theorem State.hasCap_iff (s : State) (n : Nat) : s.hasCap n = true ↔ s.wp + n ≤ s.cfg.capBits := by
  simp [State.hasCap]

theorem State.emit_fits {s : State} {fs : List Field} (h : s.wp + cost fs ≤ s.cfg.capBits) :
    s.emit fs = (s.appendAll fs, true) := if_pos ((s.hasCap_iff _).2 h)

theorem State.emit_full {s : State} {fs : List Field} (h : s.cfg.capBits < s.wp + cost fs) :
    s.emit fs = (s, false) := if_neg (by rw [s.hasCap_iff]; omega)

/-! ### The split of a large count -/

theorem splitFields_of_le {chunk : List Field} {tail : Nat → List Field} {countMax n : Nat} (hn : 1 ≤ n)
    (h : n ≤ countMax) : splitFields chunk tail countMax n = tail n := by
  have hk : chunkCount countMax n = 0 := Nat.div_eq_of_lt (by omega)
  simp [splitFields, tailCount, hk]

theorem chunkCount_of_lt {countMax n : Nat} (hm : 1 ≤ countMax) (h : countMax < n) :
    chunkCount countMax n = chunkCount countMax (n - countMax) + 1 := by
  unfold chunkCount
  rw [show n - 1 = (n - countMax - 1) + countMax by omega, Nat.add_div_right _ (by omega)]

theorem tailCount_of_lt {countMax n : Nat} (hm : 1 ≤ countMax) (h : countMax < n) :
    tailCount countMax n = tailCount countMax (n - countMax) := by
  unfold tailCount
  rw [chunkCount_of_lt hm h, Nat.succ_mul]
  omega

theorem splitFields_of_lt {chunk : List Field} {tail : Nat → List Field} {countMax n : Nat}
    (hm : 1 ≤ countMax) (h : countMax < n) :
    splitFields chunk tail countMax n = chunk ++ splitFields chunk tail countMax (n - countMax) := by
  simp [splitFields, tailCount_of_lt hm h, chunkCount_of_lt hm h, List.replicate_succ]

/-- The split emission succeeds when the whole layout fits, and then writes exactly it (R142, R145). -/
theorem State.emitChunks_fits {chunk : List Field} {tail : Nat → List Field} {countMax : Nat}
    (hm : 1 ≤ countMax) {rounds n : Nat} {s : State} (hn : 1 ≤ n) (hr : n ≤ rounds)
    (h : s.wp + cost (splitFields chunk tail countMax n) ≤ s.cfg.capBits) :
    s.emitChunks chunk tail countMax rounds n = (s.appendAll (splitFields chunk tail countMax n), true) := by
  induction rounds generalizing n s with
  | zero => omega
  | succ rounds ih =>
    unfold State.emitChunks
    by_cases hlt : countMax < n
    · rw [splitFields_of_lt hm hlt, cost_append] at h
      rw [if_pos hlt, State.emit_fits (by omega), splitFields_of_lt hm hlt, State.appendAll_append]
      exact ih (by omega) (by omega) (by simpa [Nat.add_assoc] using h)
    · rw [splitFields_of_le hn (by omega)] at h ⊢
      rw [if_neg hlt, State.emit_fits h]

/-- The split emission fails when the whole layout does not fit, after exactly the chunks that do (R28). -/
theorem State.emitChunks_full {chunk : List Field} {tail : Nat → List Field} {countMax : Nat}
    (hm : 1 ≤ countMax) (hc : 0 < cost chunk) {rounds n : Nat} {s : State} (hn : 1 ≤ n) (hr : n ≤ rounds)
    (h : s.cfg.capBits < s.wp + cost (splitFields chunk tail countMax n)) :
    s.emitChunks chunk tail countMax rounds n =
      (s.appendAll (List.replicate (min (chunkCount countMax n) ((s.cfg.capBits - s.wp) / cost chunk)) chunk).flatten,
        false) := by
  induction rounds generalizing n s with
  | zero => omega
  | succ rounds ih =>
    unfold State.emitChunks
    by_cases hlt : countMax < n
    · rw [splitFields_of_lt hm hlt, cost_append] at h
      rw [if_pos hlt]
      by_cases hfit : s.wp + cost chunk ≤ s.cfg.capBits
      · rw [State.emit_fits hfit]
        have hroom : (s.cfg.capBits - s.wp) / cost chunk = (s.cfg.capBits - (s.wp + cost chunk)) / cost chunk + 1 := by
          rw [show s.cfg.capBits - s.wp = s.cfg.capBits - (s.wp + cost chunk) + cost chunk by omega,
            Nat.add_div_right _ hc]
        have hrec := ih (n := n - countMax) (s := s.appendAll chunk) (by omega) (by omega)
          (by simpa [Nat.add_assoc] using h)
        simp only [hrec, State.appendAll_cfg, State.appendAll_wp, chunkCount_of_lt hm hlt, hroom,
          Nat.succ_min_succ, List.replicate_succ, List.flatten_cons, State.appendAll_append]
      · rw [State.emit_full (by omega), Nat.div_eq_of_lt (by omega)]
        simp
    · rw [splitFields_of_le hn (by omega)] at h
      have hk : chunkCount countMax n = 0 := Nat.div_eq_of_lt (by omega)
      rw [if_neg hlt, State.emit_full h, hk]
      simp

/-- Whatever the configuration, a split emission only appends, and never past the capacity. -/
theorem State.emitChunks_appends (chunk : List Field) (tail : Nat → List Field) (countMax rounds n : Nat)
    (s : State) : ∃ fs, (s.emitChunks chunk tail countMax rounds n).1 = s.appendAll fs ∧
      (fs = [] ∨ s.wp + cost fs ≤ s.cfg.capBits) := by
  have hemit : ∀ (s : State) (gs : List Field), ∃ fs, (s.emit gs).1 = s.appendAll fs ∧
      (fs = [] ∨ s.wp + cost fs ≤ s.cfg.capBits) := by
    intro s gs
    by_cases h : s.wp + cost gs ≤ s.cfg.capBits
    · exact ⟨gs, by rw [State.emit_fits h], .inr h⟩
    · exact ⟨[], by rw [State.emit_full (by omega)]; rfl, .inl rfl⟩
  induction rounds generalizing n s with
  | zero => exact hemit s (tail n)
  | succ rounds ih =>
    unfold State.emitChunks
    split
    · by_cases h : s.wp + cost chunk ≤ s.cfg.capBits
      · rw [State.emit_fits h]
        obtain ⟨fs, hfs, hcap⟩ := ih (n - countMax) (s.appendAll chunk)
        refine ⟨chunk ++ fs, by rw [State.appendAll_append]; exact hfs, .inr ?_⟩
        rcases hcap with rfl | hcap
        · simpa using h
        · simpa [Nat.add_assoc] using hcap
      · rw [State.emit_full (by omega)]
        exact ⟨[], rfl, .inl rfl⟩
    · exact hemit s (tail n)

/-! ### Read-out -/

theorem State.getLsbD_out (s : State) {i j : Nat} (hj : j < 8) : (s.out i).getLsbD j = s.outBit i j := by
  simp [State.out, hj]

/-- Bit 7 of an output byte is 0 (R41, R45). -/
theorem State.msb_out (s : State) (i : Nat) : (s.out i).msb = false := by
  rw [BitVec.msb_eq_getLsbD_last, State.getLsbD_out s (by decide)]
  simp [State.outBit]

theorem State.len_le_maxBytes {s : State} (hl : s.cfg.legal = true) (h : s.wp ≤ s.cfg.capBits) :
    s.len ≤ s.cfg.maxBytes := by
  rw [Cfg.legal_capBits hl] at h
  unfold State.len Config.cellBits
  omega

end Sys2Proof.Machine

namespace Sys2Proof

open Sys2Proof.Machine

theorem ObsEq.refl (s : State) : ObsEq s s := ⟨rfl, rfl, fun _ _ => rfl⟩

theorem ObsEq.symm {s t : State} (h : ObsEq s t) : ObsEq t s :=
  ⟨h.1.symm, h.2.1.symm, fun k hk => (h.2.2 k (by rw [h.2.1]; exact hk)).symm⟩

theorem ObsEq.trans {s t u : State} (h : ObsEq s t) (h' : ObsEq t u) : ObsEq s u :=
  ⟨h.1.trans h'.1, h.2.1.trans h'.2.1, fun k hk => (h.2.2 k hk).trans (h'.2.2 k (by rw [← h.2.1]; exact hk))⟩

/-- The Message depends on nothing but `WP` and the valid bits (R27, R45). -/
theorem ObsEq.message {s t : State} (h : ObsEq s t) : s.message = t.message := by
  have hout : ∀ i, s.out i = t.out i := by
    intro i
    apply BitVec.eq_of_getLsbD_eq
    intro j hj
    rw [State.getLsbD_out s hj, State.getLsbD_out t hj, State.outBit, State.outBit, ← h.2.1]
    by_cases hv : streamIndex i j < s.wp
    · rw [h.2.2 _ hv]
    · simp [hv]
  simp [State.message, State.len, h.2.1, funext hout]

/-- Appending the same fields to states the host cannot tell apart gives such states again. -/
theorem ObsEq.appendAll {s t : State} (h : ObsEq s t) (fs : List Field) :
    ObsEq (s.appendAll fs) (t.appendAll fs) := by
  refine ⟨by simpa using h.1, by simpa using h.2.1, ?_⟩
  intro k hk
  obtain ⟨hwp, hb, ⟨hk1, -⟩, -⟩ := Wrote.appendAll s fs
  obtain ⟨hwp', hb', ⟨hk1', -⟩, -⟩ := Wrote.appendAll t fs
  by_cases hlt : k < s.wp
  · rw [hk1 k (by omega), hk1' k (by rw [← h.2.1]; omega), h.2.2 k hlt]
  · have hj : k - s.wp < cost fs := by rw [hwp] at hk; omega
    have := (hb _ hj).trans (hb' _ hj).symm
    rw [← h.2.1, show s.wp + (k - s.wp) = k by omega] at this
    exact Option.some.inj this

/-- Emitting the same fields from states the host cannot tell apart: the same answer, and such states. -/
theorem ObsEq.emit {s t : State} (h : ObsEq s t) (fs : List Field) :
    (s.emit fs).2 = (t.emit fs).2 ∧ ObsEq (s.emit fs).1 (t.emit fs).1 := by
  by_cases hf : s.wp + cost fs ≤ s.cfg.capBits
  · rw [State.emit_fits hf, State.emit_fits (by rw [← h.1, ← h.2.1]; exact hf)]
    exact ⟨rfl, h.appendAll fs⟩
  · rw [State.emit_full (by omega), State.emit_full (by rw [← h.1, ← h.2.1]; omega)]
    exact ⟨rfl, h⟩

end Sys2Proof
end

