-- ==== Sys2Proof/Laws/Exec.lean ====
section
/-! SUPPORT. What one command can do, said once: `exec_next` lists every shape a next state has, and the lemmas
before it give the end of a single and of a split emission exactly. -/

namespace Sys2Proof.Machine

/-! ### The ends of a packer command -/

theorem finishEmit_fits {s : State} {fs : List Field} (h : s.wp + cost fs ≤ s.cfg.capBits) :
    s.finishEmit fs = .next ((s.appendAll fs).answer ⟨true, 0, []⟩) := by
  rw [State.finishEmit, State.emit_fits h]; rfl

theorem finishEmit_full {s : State} {fs : List Field} (h : s.cfg.capBits < s.wp + cost fs) :
    s.finishEmit fs = .next (s.answer ⟨false, 0, []⟩) := by
  rw [State.finishEmit, State.emit_full h]; rfl

/-- A single emission meets the contract of R120. -/
theorem emitsOrFails_of_finishEmit {fs : List Field} {i : Instr} {s : State}
    (h : exec i s = s.finishEmit fs) : EmitsOrFails fs i s :=
  ⟨fun hf => ⟨_, h.trans (finishEmit_fits hf), (Wrote.appendAll s fs).answer _, rfl⟩,
    fun hf => h.trans (finishEmit_full hf)⟩

/-- The state a rolled back emission leaves (R147): what was appended is stale, nothing valid has changed. -/
def rolledBack (s : State) (fs : List Field) : State :=
  ((s.appendAll fs).setWp s.wp).answer ⟨false, 0, []⟩

theorem rolledBack_obsEq (s : State) (fs : List Field) : ObsEq s (rolledBack s fs) := by
  obtain ⟨-, -, ⟨hk, -⟩, -⟩ := Wrote.appendAll s fs
  exact ⟨by simp [rolledBack], rfl, fun k hlt => (hk k (by omega)).symm⟩

theorem rolledBack_keepsOutside (s : State) (fs : List Field) : KeepsOutside (cost fs) s (rolledBack s fs) :=
  (Wrote.appendAll s fs).2.2.1

theorem rolledBack_keepsHost (s : State) (fs : List Field) : KeepsHost s (rolledBack s fs) :=
  ⟨by simp [rolledBack], by simp [rolledBack], by simp [rolledBack]⟩

/-- A split emission meets the contract of R147. -/
theorem emitsOrRollsBack_of_emitChunks {chunk : List Field} {tail : Nat → List Field} {countMax n : Nat}
    {i : Instr} {s : State} (hm : 1 ≤ countMax) (hc : 0 < cost chunk) (hn : 1 ≤ n)
    (h : exec i s = State.finish (rollback s.wp (s.emitChunks chunk tail countMax n n))) :
    EmitsOrRollsBack (splitFields chunk tail countMax n) (cost chunk) (chunkCount countMax n) i s := by
  refine ⟨fun hf => ?_, fun hf => ?_⟩
  · rw [State.emitChunks_fits hm hn (Nat.le_refl n) hf] at h
    exact ⟨_, h, (Wrote.appendAll s _).answer _, rfl⟩
  · rw [State.emitChunks_full hm hc hn (Nat.le_refl n) hf] at h
    refine ⟨rolledBack s _, h, rolledBack_obsEq s _, rolledBack_keepsHost s _, rfl, ?_⟩
    have := rolledBack_keepsOutside s
      (List.replicate (min (chunkCount countMax n) ((s.cfg.capBits - s.wp) / cost chunk)) chunk).flatten
    rwa [cost_replicate, Nat.mul_comm] at this

/-! ### Every shape of a next state -/

/-- A field list that was appended within the capacity (or nothing at all). -/
def Appendable (s : State) (fs : List Field) : Prop := fs = [] ∨ s.wp + cost fs ≤ s.cfg.capBits

/-- A packer command's next state: everything appended, or everything rolled back. -/
def PackerNext (s t : State) : Prop :=
  (∃ fs, Appendable s fs ∧ t = (s.appendAll fs).answer ⟨true, 0, []⟩) ∨
  (∃ fs, Appendable s fs ∧ t = rolledBack s fs)

theorem packerNext_of_finishEmit {s t : State} {fs : List Field} (h : s.finishEmit fs = .next t) :
    PackerNext s t := by
  by_cases hf : s.wp + cost fs ≤ s.cfg.capBits
  · rw [finishEmit_fits hf] at h
    exact .inl ⟨fs, .inr hf, by cases h; rfl⟩
  · rw [finishEmit_full (by omega)] at h
    exact .inr ⟨[], .inl rfl, by cases h; rfl⟩

theorem packerNext_of_emitChunks {s t : State} {chunk : List Field} {tail : Nat → List Field}
    {countMax rounds n : Nat}
    (h : State.finish (rollback s.wp (s.emitChunks chunk tail countMax rounds n)) = .next t) :
    PackerNext s t := by
  obtain ⟨fs, hfs, hcap⟩ := State.emitChunks_appends chunk tail countMax rounds n s
  generalize s.emitChunks chunk tail countMax rounds n = r at h hfs
  obtain ⟨s', ok⟩ := r
  simp only at hfs
  subst hfs
  cases ok
  · exact .inr ⟨fs, hcap, by cases h; rfl⟩
  · exact .inl ⟨fs, hcap, by cases h; rfl⟩

theorem packerNext_of_trivial {s t : State} (h : State.finish (s, true) = .next t) : PackerNext s t :=
  .inl ⟨[], .inl rfl, by cases h; rfl⟩

/-- Every `PK.` command that is not refused ends in one of the two states of R121. -/
theorem packerNext_of_exec {i : Instr} {s t : State} (hi : isPacker i = true) (h : exec i s = .next t) :
    PackerNext s t := by
  cases i with
  | reset => cases hi
  | hasCap => cases hi
  | write => cases hi
  | checkpoint => cases hi
  | restore => cases hi
  | getData => cases hi
  | header d =>
    simp only [exec, execHeader] at h
    split at h
    · cases h
    · exact packerNext_of_finishEmit h
  | footer => exact packerNext_of_finishEmit h
  | devCtrl c =>
    simp only [exec, execDevCtrl] at h
    split at h
    · cases h
    · exact packerNext_of_finishEmit h
  | beginDc p =>
    simp only [exec, execBeginDc] at h
    split at h
    · cases h
    · exact packerNext_of_finishEmit h
  | endDc l => exact packerNext_of_finishEmit h
  | skip n =>
    simp only [exec, execSkip] at h
    split at h
    · exact packerNext_of_trivial h
    · exact packerNext_of_emitChunks h
  | setSeq num payload =>
    simp only [exec, execSetSeq] at h
    split at h
    · exact packerNext_of_trivial h
    · split at h
      · cases h
      · split at h
        · cases h
        · exact packerNext_of_finishEmit h
  | setRpt v l num =>
    simp only [exec, execSetRpt] at h
    split at h
    · exact packerNext_of_trivial h
    · split at h
      · cases h
      · exact packerNext_of_emitChunks h
  | progEvt payload =>
    simp only [exec, execProgEvt] at h
    split at h
    · cases h
    · exact packerNext_of_finishEmit h
  | fwChunk size payload =>
    simp only [exec, execFwChunk] at h
    split at h
    · cases h
    · split at h
      · cases h
      · split at h
        · cases h
        · exact packerNext_of_finishEmit h

/-- What any command can do. -/
theorem exec_next {i : Instr} {s t : State} (h : exec i s = .next t) :
    (i = .reset ∧ t = s.fresh.answer Response.success) ∨
    (∃ sp, i = .restore sp ∧ operandU sp ≤ s.wp ∧ t = (s.setWp (operandU sp)).answer Response.success) ∨
    ((i = .getData ∨ i = .checkpoint ∨ ∃ bits, i = .hasCap bits) ∧
      ∃ r, r.ok = true ∧ t = s.answer r) ∨
    (∃ value width, i = .write value width ∧ 1 ≤ operandU width ∧ s.wp + operandU width ≤ s.cfg.capBits ∧
      t = (s.append ⟨operandU value, operandU width⟩).answer Response.success) ∨
    (isPacker i = true ∧ PackerNext s t) := by
  cases i with
  | reset => exact .inl ⟨rfl, by cases h; rfl⟩
  | hasCap bits => exact .inr (.inr (.inl ⟨.inr (.inr ⟨bits, rfl⟩), _, rfl, by cases h; rfl⟩))
  | checkpoint => exact .inr (.inr (.inl ⟨.inr (.inl rfl), _, rfl, by cases h; rfl⟩))
  | getData =>
    simp only [exec, execGetData] at h
    split at h
    · cases h
    · exact .inr (.inr (.inl ⟨.inl rfl, _, rfl, (Host.Outcome.next.inj h).symm⟩))
  | restore sp =>
    simp only [exec, execRestore] at h
    split at h
    · cases h
    · rename_i hsp
      exact .inr (.inl ⟨sp, rfl, by simpa using hsp, by cases h; rfl⟩)
  | write value width =>
    simp only [exec, execWrite] at h
    split at h
    · cases h
    · rename_i hw
      split at h
      · cases h
      · split at h
        · cases h
        · rename_i hcap
          refine .inr (.inr (.inr (.inl ⟨value, width, rfl, ?_, ?_, by cases h; rfl⟩)))
          · exact (Decidable.not_not.1 hw).1
          · exact (s.hasCap_iff _).1 (by simpa using hcap)
  | header d => exact .inr (.inr (.inr (.inr ⟨rfl, packerNext_of_exec rfl h⟩)))
  | footer => exact .inr (.inr (.inr (.inr ⟨rfl, packerNext_of_exec rfl h⟩)))
  | devCtrl c => exact .inr (.inr (.inr (.inr ⟨rfl, packerNext_of_exec rfl h⟩)))
  | beginDc p => exact .inr (.inr (.inr (.inr ⟨rfl, packerNext_of_exec rfl h⟩)))
  | endDc l => exact .inr (.inr (.inr (.inr ⟨rfl, packerNext_of_exec rfl h⟩)))
  | skip n => exact .inr (.inr (.inr (.inr ⟨rfl, packerNext_of_exec rfl h⟩)))
  | setSeq num payload => exact .inr (.inr (.inr (.inr ⟨rfl, packerNext_of_exec rfl h⟩)))
  | setRpt v l num => exact .inr (.inr (.inr (.inr ⟨rfl, packerNext_of_exec rfl h⟩)))
  | progEvt payload => exact .inr (.inr (.inr (.inr ⟨rfl, packerNext_of_exec rfl h⟩)))
  | fwChunk size payload => exact .inr (.inr (.inr (.inr ⟨rfl, packerNext_of_exec rfl h⟩)))

end Sys2Proof.Machine
end

