-- ==== Sys2Proof/Laws/PerInstr.lean ====
section
/-! SUPPORT. A statement made per constructor (LAWS.json): the encoded command word carries the instruction's
`OP`, which is one the opcode map of R62 selects, and its operand words in their places (R60). -/

namespace Sys2Proof.Laws.EncodedFields

/-- The `OP` and operand words of the encoded command are the instruction's own. -/
def Statement (i : Instr) : Prop :=
  (encode i).op = i.opcode ∧ (encode i).a = i.operandWords.1 ∧ (encode i).b = i.operandWords.2.1 ∧
    (encode i).c = i.operandWords.2.2 ∧ (encode i).payload = i.payloadList

theorem ofPack (i : Instr) : Statement i :=
  ⟨Command.op_pack _ _ _ _ _, Command.a_pack _ _ _ _ _, Command.b_pack _ _ _ _ _, Command.c_pack _ _ _ _ _, rfl⟩

theorem reset : Statement .reset := ofPack _
theorem hasCap (bits : Word) : Statement (.hasCap bits) := ofPack _
theorem write (value width : Word) : Statement (.write value width) := ofPack _
theorem checkpoint : Statement .checkpoint := ofPack _
theorem restore (sp : Word) : Statement (.restore sp) := ofPack _
theorem getData : Statement .getData := ofPack _
theorem header (devIndex : Word) : Statement (.header devIndex) := ofPack _
theorem footer : Statement .footer := ofPack _
theorem devCtrl (cmd : Word) : Statement (.devCtrl cmd) := ofPack _
theorem beginDc (pktIndex : Word) : Statement (.beginDc pktIndex) := ofPack _
theorem endDc (isLast : Word) : Statement (.endDc isLast) := ofPack _
theorem skip (n : Word) : Statement (.skip n) := ofPack _
theorem setSeq (num : Word) (payload : List Word) : Statement (.setSeq num payload) := ofPack _
theorem setRpt (value lastValue num : Word) : Statement (.setRpt value lastValue num) := ofPack _
theorem progEvt (payload : List Word) : Statement (.progEvt payload) := ofPack _
theorem fwChunk (size : Word) (payload : List Word) : Statement (.fwChunk size payload) := ofPack _

end Sys2Proof.Laws.EncodedFields
end

