-- ==== Sys2Proof/Tests/Slice0.lean ====
section
/-! SUPPORT. The model's own tests. Expected results come from 95_test_vectors.md (V-S1 to V-S9, sections 2 and 3)
or from the rule named; `st mb wp` is the vectors' start state: default configuration, `MAX_BYTES = mb`, `wp` zero
bits written. The last part holds a witness for the hypotheses of every statement that has any. -/

namespace Sys2Proof.Tests

open Sys2Proof Sys2Proof.Machine

set_option maxRecDepth 20000

/-! ### Helpers -/

/-- A store of `mb` bytes with `wp` zero bits in it. -/
def st (mb wp : Nat) : State :=
  { cfg := Config.defaults mb, wp := wp, mem := [], commands := [], response := none, resets := 0 }

/-- The same, with stale bits of other content. -/
def stStale (mb wp : Nat) : State := { st mb wp with mem := [(mb - 1, 0x7F)] }

/-- Whether an outcome is a next state. -/
def ran : Result → Bool
  | .next _ => true
  | .fault _ => false
  | .refused _ => false

/-- The state after a command, the same state where it stops. -/
def after (i : Instr) (s : State) : State :=
  match exec i s with
  | .next t => t
  | .fault _ => s
  | .refused _ => s

theorem exec_after {i : Instr} {s : State} (h : ran (exec i s) = true) : exec i s = .next (after i s) := by
  unfold after
  generalize exec i s = r at h
  cases r with
  | next t => rfl
  | fault f => cases h
  | refused f => cases h

/-- What the host sees after a command: `ok`, `val`, `WP`, and what BB.GETDATA would answer. -/
def seen (r : Result) : Option (Bool × Word × Nat × List Byte) :=
  match r with
  | .next t => t.response.map (fun a => (a.ok, a.val, t.wp, t.message))
  | .fault _ => none
  | .refused _ => none

/-- Why a command was refused. -/
def why (r : Result) : Option Refusal :=
  match r with
  | .next _ => none
  | .fault _ => none
  | .refused e => some e

/-! ### WellFormed: an ill-formed term for each check -/

theorem test_wf_accepts_bytes : Instr.wf (.setSeq 2 [0, 0xFF]) = true ∧ Instr.wf (.fwChunk 1 [0x80]) = true := by
  decide

theorem test_wf_refuses_setSeq_word : Instr.wf (.setSeq 1 [0x100]) = false := by decide
theorem test_wf_refuses_fwChunk_word : Instr.wf (.fwChunk 1 [0x100]) = false := by decide
theorem test_cfg_defaults_legal : (Config.defaults 1).legal = true := by decide
theorem test_cfg_refuses_no_store : (Config.defaults 0).storeLegal = false := by decide

theorem test_cfg_refuses_bits_per_byte :
    Cfg.fixedLegal { Config.defaults 1 with bitsPerByte := 8 } = false := by decide

theorem test_cfg_refuses_wide_flag :
    Cfg.fixedLegal { Config.defaults 1 with wCont := 2 } = false := by decide

/-- `W_POS` is 33 for a byte more than the largest legal store. -/
theorem test_cfg_refuses_wide_position :
    (Config.defaults 613566757).widthsLegal = false ∧ (Config.defaults 613566756).widthsLegal = true := by decide

theorem test_cfg_refuses_other_devIdxLimit :
    Cfg.devIdxFixed { Config.defaults 1 with devIdxLimit := 32 } = false := by decide

theorem test_cfg_refuses_width_zero :
    Cfg.widthsLegal { Config.defaults 1 with wFwSize := 0 } = false := by decide

theorem test_cfg_refuses_width_33 :
    Cfg.widthsLegal { Config.defaults 1 with wPktIdx := 33 } = false := by decide

theorem test_cfg_refuses_narrow_devIdx :
    Cfg.devIdxLegal { Config.defaults 1 with wDevIdx := 5 } = false := by decide

theorem test_cfg_refuses_count_order :
    Cfg.countsLegal { Config.defaults 1 with fewMax := 15, manyMax := 15 } = false := by decide

theorem test_cfg_refuses_wide_count :
    Cfg.countsLegal { Config.defaults 1 with manyMax := 256 } = false := by decide

theorem test_cfg_refuses_equal_messageTypes :
    Cfg.messageTypesLegal { Config.defaults 1 with mtFwPkt := 1 } = false := by decide

theorem test_cfg_refuses_wide_tag :
    Cfg.dataChangeTagsLegal { Config.defaults 1 with dccSetManyValue := 8 } = false := by decide

theorem test_cfg_refuses_wide_footer :
    Cfg.footerLegal { Config.defaults 1 with footerSeq := [⟨0x80, 7⟩] } = false := by decide

/-! ### Decoding: words written out from R60 and R62, most of them printed in 95_test_vectors.md section 3 -/

theorem test_decode_reset : decodeTableWord 104 0x00000000000000000000000000 = some .reset := by decide
theorem test_decode_hasCap : decodeTableWord 104 0x01000000220000000000000000 = some (.hasCap 34) := by decide
theorem test_decode_write : decodeTableWord 104 0x02000000020000000300000000 = some (.write 2 3) := by decide
theorem test_decode_checkpoint : decodeTableWord 104 0x03000000000000000000000000 = some .checkpoint := by decide
theorem test_decode_restore : decodeTableWord 104 0x04000000070000000000000000 = some (.restore 7) := by decide
theorem test_decode_getData : decodeTableWord 104 0x05000000000000000000000000 = some .getData := by decide
theorem test_decode_header : decodeTableWord 104 0x080000003F0000000000000000 = some (.header 63) := by decide
theorem test_decode_footer : decodeTableWord 104 0x09000000000000000000000000 = some .footer := by decide
theorem test_decode_devCtrl : decodeTableWord 104 0x0A000001FF0000000000000000 = some (.devCtrl 0x1FF) := by decide
theorem test_decode_beginDc : decodeTableWord 104 0x0B000000070000000000000000 = some (.beginDc 7) := by decide
theorem test_decode_endDc : decodeTableWord 104 0x0C000000000000000000000000 = some (.endDc 0) := by decide
theorem test_decode_skip : decodeTableWord 104 0x0D0000012C0000000000000000 = some (.skip 300) := by decide

theorem test_decode_setSeq :
    decodeTableWord 104 0x0E000000030000000000000000 = some (.setSeq 3 [0, 0, 0]) := by decide

theorem test_decode_setRpt :
    decodeTableWord 104 0x0F000000AA000000AA0000012C = some (.setRpt 0xAA 0xAA 300) := by decide

theorem test_decode_progEvt :
    decodeTableWord 104 0x10000000000000000000000000 = some (.progEvt [0, 0, 0]) := by decide

theorem test_decode_fwChunk :
    decodeTableWord 104 0x11000000040000000000000000 = some (.fwChunk 4 [0, 0, 0, 0]) := by decide

/-- R63: the first and the last reserved values. -/
theorem test_decode_reserved :
    [0x06, 0x07, 0x12, 0x1F].map (fun op => decodeTableWord 104 (op * 2 ^ 96)) = [none, none, none, none] := by
  decide

/-- The encoder writes the word of P2 row 5. -/
theorem test_encode_setRpt :
    encode (.setRpt 0x20 0x20 10) = ⟨0x0F00000020000000200000000A, []⟩ := by decide

/-! ### One step per instruction -/

/-- 2.10. -/
theorem test_reset : seen (exec .reset (st 4 28)) = some (true, 0, 0, []) := by decide

/-- 2.1, first the row at the capacity, then the row without a 32-bit wrap. -/
theorem test_hasCap_edge : seen (exec (.hasCap 16) (st 4 12)) = some (true, 1, 12, [0, 0]) := by decide
theorem test_hasCap_no_wrap : seen (exec (.hasCap 0xFFFFFFFF) (st 4 5)) = some (true, 0, 5, [0]) := by decide

/-- 2.2, all phases of a 32-bit field: start 4; and 2.3 row 11', stale bits overwritten. -/
theorem test_write_32 : seen (exec (.write 0xFFFFFFFF 32) (st 8 4)) =
    some (true, 0, 36, [0x70, 0x7F, 0x7F, 0x7F, 0x7F, 0x01]) := by decide

theorem test_write_over_stale :
    seen (exec (.write 0x15 5) { st 4 14 with mem := [(0, 0x7D), (1, 0x1F), (2, 0x73), (3, 0x55)] }) =
      some (true, 0, 19, [0x7D, 0x1F, 0x15]) := by decide

/-- 2.3 row 6. -/
theorem test_checkpoint : seen (exec .checkpoint (st 4 28)) = some (true, 28, 28, [0, 0, 0, 0]) := by decide

/-- 2.3 row 7, and 2.9. -/
theorem test_restore : seen (exec (.restore 12) { st 4 28 with mem := [(0, 0x7D), (1, 0x3F), (2, 0x73), (3, 0x55)] }) =
    some (true, 0, 12, [0x7D, 0x1F]) := by decide

theorem test_restore_forward : why (exec (.restore 13) (st 4 12)) = some .restoreForward := by decide

/-- 2.3 row 8: the read-out masks the stale bit of byte 1. -/
theorem test_getData : seen (exec .getData { st 4 12 with mem := [(0, 0x7D), (1, 0x3F)] }) =
    some (true, 2, 12, [0x7D, 0x1F]) := by decide

/-- 2.4 and 2.9. -/
theorem test_header : seen (exec (.header 63) (st 2 0)) = some (true, 0, 7, [0x3F]) := by decide

theorem test_header_contract_before_capacity :
    why (exec (.header 64) (st 1 7)) = some .deviceIndexOutOfRange := by decide

/-- 2.4. -/
theorem test_footer : seen (exec .footer (st 2 3)) = some (true, 0, 10, [0x38, 0x07]) := by decide
theorem test_footer_full : seen (exec .footer (st 1 1)) = some (false, 0, 1, [0]) := by decide

/-- 2.4; V-S6a: one bit short, the tag is not written either. -/
theorem test_devCtrl : seen (exec (.devCtrl 0x1FF) (st 3 0)) = some (true, 0, 16, [0x01, 0x7F, 0x03]) := by decide
theorem test_devCtrl_full : seen (exec (.devCtrl 1) (st 3 6)) = some (false, 0, 6, [0]) := by decide

/-- 2.4. -/
theorem test_beginDc : seen (exec (.beginDc 0x1234) (st 4 0)) =
    some (true, 0, 23, [0x02, 0x34, 0x24, 0x00]) := by decide

theorem test_beginDc_wide : why (exec (.beginDc 0x10000) (st 4 0)) = some .valueTooWide := by decide

/-- 2.4: the boolean operand. -/
theorem test_endDc_true : seen (exec (.endDc 0xFFFFFFFF) (st 1 4)) = some (true, 0, 7, [0x10]) := by decide
theorem test_endDc_false : seen (exec (.endDc 0) (st 1 0)) = some (true, 0, 3, [0x00]) := by decide

/-- V-S3, and the last row of 2.5: the loop stops at the first chunk that does not fit. -/
theorem test_skip_271 : seen (exec (.skip 271) (st 16 0)) = some (true, 0, 22, [0x7B, 0x3F, 0x10, 0x00]) := by decide
theorem test_skip_huge : seen (exec (.skip 2147483647) (st 2 0)) = some (false, 0, 0, []) := by decide

/-- V-S9; 2.6: a refusal comes before the capacity test. -/
theorem test_setSeq : seen (exec (.setSeq 3 [7, 7, 9]) (st 8 0)) =
    some (true, 0, 30, [0x3C, 0x70, 0x41, 0x09, 0x00]) := by decide

theorem test_setSeq_short : why (exec (.setSeq 3 [7, 7]) (st 1 0)) = some .payloadTooShort := by decide

/-- V-S5, third row; V-S8, the rollback across the split. -/
theorem test_setRpt_260 : seen (exec (.setRpt 0x20 0x21 260) (st 16 0)) =
    some (true, 0, 34, [0x7F, 0x0F, 0x24, 0x0B, 0x08]) := by decide

theorem test_setRpt_rollback : seen (exec (.setRpt 0x20 0x20 260) (st 3 0)) = some (false, 0, 0, []) := by decide

/-- 2.8. -/
theorem test_progEvt : seen (exec (.progEvt [1, 2, 0xFFFFFFFF]) (st 15 0)) = some (true, 0, 103,
    [0x03, 0x01, 0x00, 0x00, 0x00, 0x20, 0x00, 0x00, 0x00, 0x00, 0x7E, 0x7F, 0x7F, 0x7F, 0x1F]) := by decide

theorem test_progEvt_short : why (exec (.progEvt [1, 2]) (st 16 0)) = some .payloadTooShort := by decide

/-- 2.8. -/
theorem test_fwChunk : seen (exec (.fwChunk 3 [0x01, 0x7F, 0x40]) (st 8 0)) =
    some (true, 0, 35, [0x04, 0x03, 0x01, 0x7F, 0x40]) := by decide

theorem test_fwChunk_wide : why (exec (.fwChunk 1 [0x80]) (st 8 0)) = some .valueTooWide := by decide

/-- `SINGLE_BYTE_SOURCE = lastValue` (2.7). -/
theorem test_setRpt_last_source :
    seen (exec (.setRpt 0x20 0x21 1) { st 16 0 with cfg := { Config.defaults 16 with singleByteSource := .lastValue } }) =
      some (true, 0, 12, [0x0C, 0x02]) := by decide

/-- P1 row 2, as the first command after reset. -/
theorem test_step_from_reset :
    seen (step (State.reset.withFetchWord 104 0x08000000050000000000000000)) = some (true, 0, 7, [0x05]) := by decide

/-! ### Witnesses: a state and operands that meet the hypotheses of each statement, at the ends of their ranges -/

/-- A state with one command issued: `op` beside operand words 1, 0, 0. -/
def issued (op : OpCode) : State := { st 4 0 with commands := [⟨Command.pack op 1 0 0, []⟩] }

/-- The first reserved values, a code between them and the last ones (R63). -/
theorem witness_ReservedOpRefused :
    (issued 0x06).commands = [⟨Command.pack 0x06 1 0 0, []⟩] ∧ why (step (issued 0x06)) = some .reservedOp ∧
    why (step (issued 0x07)) = some .reservedOp ∧ ran (step (issued 0x05)) = true ∧
    ran (step (issued 0x08)) = true ∧ why (step (issued 0x11)) = some .payloadTooShort ∧
    why (step (issued 0x12)) = some .reservedOp ∧ why (step (issued 0x1F)) = some .reservedOp := by decide

/-- Two different records per clause that agree in what the command uses. -/
theorem witness_UnusedOperandsIgnored :
    (Command.op ⟨Command.pack 0x00 1 2 3, [4]⟩ = Command.op ⟨Command.pack 0x00 5 6 7, []⟩ ∧
      (Command.op ⟨Command.pack 0x09 1 2 3, [4]⟩).toNat ∈ [0x00, 0x03, 0x05, 0x09]) ∧
    (Command.op ⟨Command.pack 0x0D 1 2 3, [4]⟩ = Command.op ⟨Command.pack 0x0D 1 6 7, []⟩ ∧
      Command.a ⟨Command.pack 0x0D 1 2 3, [4]⟩ = Command.a ⟨Command.pack 0x0D 1 6 7, []⟩) ∧
    (Command.op ⟨Command.pack 0x02 1 2 3, [4]⟩ = Command.op ⟨Command.pack 0x02 1 2 7, []⟩ ∧
      Command.b ⟨Command.pack 0x02 1 2 3, [4]⟩ = Command.b ⟨Command.pack 0x02 1 2 7, []⟩) ∧
    (Command.op ⟨Command.pack 0x11 1 2 3, [4]⟩ = Command.op ⟨Command.pack 0x11 1 6 7, [4]⟩ ∧
      Command.a ⟨Command.pack 0x11 1 2 3, [4]⟩ = Command.a ⟨Command.pack 0x11 1 6 7, [4]⟩) ∧
    (Command.op ⟨Command.pack 0x0F 1 2 3, [4]⟩ = Command.op ⟨Command.pack 0x0F 1 2 3, []⟩ ∧
      Command.c ⟨Command.pack 0x0F 1 2 3, [4]⟩ = Command.c ⟨Command.pack 0x0F 1 2 3, []⟩) ∧
    Command.op ⟨Command.pack 0x10 1 2 3, [4]⟩ = Command.op ⟨Command.pack 0x10 5 6 7, [4]⟩ := by decide

theorem witness_StepRunsDecodedCommand :
    (issued 0x08).commands = ⟨Command.pack 0x08 1 0 0, []⟩ :: [] ∧
      (decode ⟨Command.pack 0x08 1 0 0, []⟩).toOption = some (.header 1) := ⟨rfl, by decide⟩

theorem witness_IdleStepChangesNothing : State.reset.commands = [] := rfl

/-- The reset machine, and one that is full and has a command issued. -/
theorem witness_StepKeepsInvariant :
    Inv State.reset ∧ step State.reset = .next State.reset ∧
    Inv { st 1 7 with commands := [encode .footer] } ∧
      ran (step { st 1 7 with commands := [encode .footer] }) = true := by
  refine ⟨?_, rfl, ?_, by decide⟩ <;> (unfold Inv; decide)

theorem witness_StepKeepsConstants : step State.reset = .next State.reset := rfl

/-- Both sides: at the capacity and above it. -/
theorem witness_OnlyReadOutBeyondStoreFaults :
    (st 1 8).cfg.capBits < (st 1 8).wp ∧ ran (exec .getData (st 1 8)) = false ∧
      ran (exec .getData (st 1 7)) = true := by decide

theorem witness_StaleBitsUnobservable : ObsEq (st 2 3) (stStale 2 3) ∧ st 2 3 ≠ stStale 2 3 := by
  unfold ObsEq; decide

theorem witness_ResponsesIgnoreStaleBits : ObsEq (st 1 0) (stStale 1 0) ∧ st 1 0 ≠ stStale 1 0 := by
  unfold ObsEq; decide

theorem witness_WritePositionNeverShrinks :
    exec (.skip 5) (st 2 3) = .next (after (.skip 5) (st 2 3)) ∧ Instr.skip 5 ≠ .reset ∧
      ∀ sp, Instr.skip 5 ≠ .restore sp :=
  ⟨exec_after (by decide), by decide, fun _ h => by cases h⟩

/-- With a valid bit that stays. -/
theorem witness_ValidBitsStay :
    exec (.restore 2) (st 2 3) = .next (after (.restore 2) (st 2 3)) ∧ Instr.restore 2 ≠ .reset ∧
      1 < (st 2 3).wp ∧ 1 < (after (.restore 2) (st 2 3)).wp :=
  ⟨exec_after (by decide), by decide, by decide, by decide⟩

/-- A command that fits and one that is rolled back after a chunk (V-S8). -/
theorem witness_FrameOutsideReach :
    (st 3 0).cfg.legal = true ∧ Instr.setRpt 0x20 0x20 260 ≠ .reset ∧
    exec (.setRpt 0x20 0x20 260) (st 3 0) = .next (after (.setRpt 0x20 0x20 260) (st 3 0)) ∧
      reach (st 3 0) (.setRpt 0x20 0x20 260) = 19 ∧
    exec (.devCtrl 1) (st 3 5) = .next (after (.devCtrl 1) (st 3 5)) ∧ reach (st 3 5) (.devCtrl 1) = 16 :=
  ⟨by decide, by decide, exec_after (by decide), by decide, exec_after (by decide), by decide⟩

/-- A command that ends exactly at the capacity, and one whose chunks are rolled back. -/
theorem witness_WritesStayInStore :
    (st 3 5).cfg.legal = true ∧ (st 3 5).wp ≤ (st 3 5).cfg.capBits ∧ Instr.devCtrl 1 ≠ .reset ∧
      exec (.devCtrl 1) (st 3 5) = .next (after (.devCtrl 1) (st 3 5)) ∧
      (after (.devCtrl 1) (st 3 5)).wp = (st 3 5).cfg.capBits ∧
      exec (.skip 256) (st 3 4) = .next (after (.skip 256) (st 3 4)) :=
  ⟨by decide, by decide, by decide, exec_after (by decide), by decide, exec_after (by decide)⟩

theorem witness_EveryCommandAnswers : exec .footer (st 1 1) = .next (after .footer (st 1 1)) :=
  exec_after (by decide)

theorem witness_WritePositionFitsRegister :
    (st 1 7).wp ≤ (st 1 7).cfg.capBits ∧ ∀ p, p ≤ (st 1 7).cfg.capBits → p < 2 ^ 3 :=
  ⟨by decide, fun p h => by have : p ≤ 7 := h; omega⟩

/-- Widths 0, 33, 1 and 32; a value one too large; a field one bit too long; a field that just fits. -/
theorem witness_WriteAppendsField :
    ((st 1 4).cfg.legal = true ∧ (st 1 5).cfg.legal = true ∧ (st 8 0).cfg.legal = true) ∧
    (why (exec (.write 0 0) (st 1 4)) = some .badWidth ∧ why (exec (.write 0 33) (st 1 4)) = some .badWidth) ∧
    (why (exec (.write 8 3) (st 1 5)) = some .valueTooWide ∧ 2 ^ 3 ≤ (8 : Word).toNat) ∧
    (why (exec (.write 7 3) (st 1 5)) = some .writeWithoutCapacity ∧ (st 1 5).cfg.capBits < 5 + 3) ∧
    seen (exec (.write 7 3) (st 1 4)) = some (true, 0, 7, [0x70]) ∧
    ran (exec (.write 1 1) (st 1 6)) = true ∧ ran (exec (.write 0xFFFFFFFF 32) (st 8 0)) = true := by decide

/-- A full store, and the full store of the largest legal size: 613566756 bytes, `W_POS` 32. -/
theorem witness_CheckpointReadsPosition :
    (st 1 7).cfg.legal = true ∧ (st 1 7).wp = (st 1 7).cfg.capBits ∧
    (st 613566756 4294967292).cfg.legal = true ∧
    (st 613566756 4294967292).wp = (st 613566756 4294967292).cfg.capBits := by decide

/-- `sp = WP` and `sp = WP + 1`. -/
theorem witness_RestoreRewindsPosition :
    (12 : Word).toNat ≤ (st 4 12).wp ∧ ran (exec (.restore 12) (st 4 12)) = true ∧
    (st 4 12).wp < (13 : Word).toNat ∧ why (exec (.restore 13) (st 4 12)) = some .restoreForward := by decide

/-- A full store and an empty one. -/
theorem witness_GetDataReadsMessage :
    (st 1 7).cfg.legal = true ∧
    (st 1 7).wp ≤ (st 1 7).cfg.capBits ∧ seen (exec .getData (st 1 7)) = some (true, 1, 7, [0]) ∧
    (st 1 0).wp ≤ (st 1 0).cfg.capBits ∧ seen (exec .getData (st 1 0)) = some (true, 0, 0, []) := by decide

theorem witness_MessageBytesAreSevenBit :
    (stStale 1 7).cfg.legal = true ∧ exec .getData (stStale 1 7) = .next (after .getData (stStale 1 7)) ∧
      (after .getData (stStale 1 7)).response = some ⟨true, 1, [0x7F]⟩ :=
  ⟨by decide, exec_after (by decide), by decide⟩

theorem witness_QueriesIdempotent :
    exec .getData (st 2 3) = .next (after .getData (st 2 3)) ∧
    exec .checkpoint (st 2 3) = .next (after .checkpoint (st 2 3)) ∧
    exec (.hasCap 11) (st 2 3) = .next (after (.hasCap 11) (st 2 3)) :=
  ⟨exec_after (by decide), exec_after (by decide), exec_after (by decide)⟩

/-- One field that fits exactly and one that does not. -/
theorem witness_HasCapDecidesWrite :
    (st 1 4).cfg.legal = true ∧ (st 1 5).cfg.legal = true ∧
    1 ≤ (3 : Word).toNat ∧ (3 : Word).toNat ≤ 32 ∧ (7 : Word).toNat < 2 ^ (3 : Word).toNat ∧
    seen (exec (.hasCap 3) (st 1 4)) = some (true, 1, 4, [0]) ∧ ran (exec (.write 7 3) (st 1 4)) = true ∧
    seen (exec (.hasCap 3) (st 1 5)) = some (true, 0, 5, [0]) ∧ ran (exec (.write 7 3) (st 1 5)) = false := by
  decide

/-- P3, rows 3 to 7 in small: a checkpoint, a command that is written, one that rolls back. -/
theorem witness_CheckpointRestoreRollsBack :
    (st 3 1).cfg.legal = true ∧ (st 3 1).wp ≤ (st 3 1).cfg.capBits ∧ exec .checkpoint (st 3 1) = .next (after .checkpoint (st 3 1)) ∧
    (after .checkpoint (st 3 1)).response = some ⟨true, 1, []⟩ ∧
    (∀ i ∈ [Instr.endDc 1, .setRpt 0x20 0x20 260], KeepsBelow (st 3 1).wp i) ∧
    ran (runAll [.endDc 1, .setRpt 0x20 0x20 260] (after .checkpoint (st 3 1))) = true := by
  refine ⟨by decide, by decide, exec_after (by decide), by decide, ?_, by decide⟩
  intro i hi
  simp only [List.mem_cons, List.not_mem_nil, or_false] at hi
  rcases hi with rfl | rfl <;> exact ⟨by decide, fun sp h => by cases h⟩

theorem witness_WrittenFieldReadsBack :
    exec (.write 5 3) (st 2 6) = .next (after (.write 5 3) (st 2 6)) ∧
    (∀ i ∈ [Instr.footer], KeepsBelow ((st 2 6).wp + (3 : Word).toNat) i) ∧
    runAll [.footer] (after (.write 5 3) (st 2 6)) = .next (after .footer (after (.write 5 3) (st 2 6))) ∧
    exec .getData (after .footer (after (.write 5 3) (st 2 6))) =
      .next (after .getData (after .footer (after (.write 5 3) (st 2 6)))) ∧
    (after .getData (after .footer (after (.write 5 3) (st 2 6)))).response = some ⟨true, 2, [0x40, 0x02]⟩ ∧
    2 < (3 : Word).toNat := by
  refine ⟨exec_after (by decide), ?_, ?_, exec_after (by decide), by decide, by decide⟩
  · intro i hi
    rw [List.mem_singleton] at hi
    subst hi
    exact ⟨by decide, fun sp h => by cases h⟩
  · unfold runAll
    rw [exec_after (i := .footer) (by decide)]
    rfl

/-- V-S6a: exactly the room the command needs, and one bit less. -/
theorem witness_PackerAllOrNothing :
    (st 3 5).cfg.legal = true ∧ isPacker (.devCtrl 1) = true ∧ violation (st 3 5) (.devCtrl 1) = none ∧
    (st 3 5).wp + bitCost (st 3 5).cfg (.devCtrl 1) = (st 3 5).cfg.capBits ∧
    violation (st 3 6) (.devCtrl 1) = none ∧ (st 3 6).wp ≤ (st 3 6).cfg.capBits ∧
    (st 3 6).cfg.capBits < (st 3 6).wp + bitCost (st 3 6).cfg (.devCtrl 1) := by decide

theorem witness_FailsExactlyWhenFull :
    (st 3 6).cfg.legal = true ∧ (st 3 6).wp ≤ (st 3 6).cfg.capBits ∧
    exec (.devCtrl 1) (st 3 6) = .next (after (.devCtrl 1) (st 3 6)) ∧
    (after (.devCtrl 1) (st 3 6)).response = some ⟨false, 0, []⟩ :=
  ⟨by decide, by decide, exec_after (by decide), by decide⟩

/-- A command that fails after it wrote a chunk (V-S2, second row). -/
theorem witness_FailureLeavesBuffer :
    exec (.skip 256) (st 3 4) = .next (after (.skip 256) (st 3 4)) ∧
    (after (.skip 256) (st 3 4)).response = some ⟨false, 0, []⟩ ∧
    Response.ok ⟨false, 0, []⟩ = false ∧ (after (.skip 256) (st 3 4)).mem ≠ (st 3 4).mem :=
  ⟨exec_after (by decide), by decide, rfl, by decide⟩

/-- Counts 0, -1 and the most negative one (V-S7). -/
theorem witness_TrivialCountsSucceed :
    (0 : Word).toInt ≤ 0 ∧ (0xFFFFFFFF : Word).toInt ≤ 0 ∧ (0x80000000 : Word).toInt ≤ 0 := by decide

/-- P2 in small: a command that succeeds and one that fails. -/
theorem witness_RunAccounting :
    (st 1 0).cfg.legal = true ∧ (st 1 0).wp ≤ (st 1 0).cfg.capBits ∧
    (∀ i ∈ [Instr.header 5, .footer], i ≠ .reset ∧ ∀ sp, i ≠ .restore sp) ∧
    ran (runAll [.header 5, .footer] (st 1 0)) = true ∧
    (responses [.header 5, .footer] (st 1 0)).map Response.ok = [true, false] := by
  refine ⟨by decide, by decide, ?_, by decide, by decide⟩
  intro i hi
  simp only [List.mem_cons, List.not_mem_nil, or_false] at hi
  rcases hi with rfl | rfl <;> exact ⟨by decide, fun sp h => by cases h⟩

/-- A skip that leaves exactly the room for the tag and the footer: 4 + 7 + 3 + 7 = 21. -/
theorem witness_RoomForTerminator :
    (st 3 4).cfg.legal = true ∧ isPacker (.skip 5) = true ∧ violation (st 3 4) (.skip 5) = none ∧
    (st 3 4).wp + (bitCost (st 3 4).cfg (.skip 5) + (st 3 4).cfg.wDcc + cost (st 3 4).cfg.footerSeq) =
      (st 3 4).cfg.capBits := by decide

theorem witness_HasCapStaysTrue :
    exec .checkpoint (st 1 0) = .next (after .checkpoint (st 1 0)) ∧
    (after .checkpoint (st 1 0)).wp ≤ (st 1 0).wp ∧
    exec (.hasCap 7) (st 1 0) = .next ((st 1 0).answer ⟨true, 1, []⟩) :=
  ⟨exec_after (by decide), by decide, rfl⟩

/-- Device indices 63 and 64, with and without room. -/
theorem witness_HeaderWritesDeviceIndex :
    (63 : Word).toNat < (st 1 0).cfg.devIdxLimit ∧ (st 1 0).wp + cost [⟨63, 7⟩] ≤ (st 1 0).cfg.capBits ∧
    (st 1 1).cfg.capBits < (st 1 1).wp + cost [⟨63, 7⟩] ∧ (st 1 0).cfg.devIdxLimit ≤ (64 : Word).toNat := by
  decide

theorem witness_FooterWritesTerminator :
    (st 1 0).wp + cost (st 1 0).cfg.footerSeq ≤ (st 1 0).cfg.capBits ∧
    (st 1 1).cfg.capBits < (st 1 1).wp + cost (st 1 1).cfg.footerSeq := by decide

/-- The largest code that fits and the smallest that does not; the exact end at the capacity; one bit less. -/
theorem witness_DevCtrlWritesCommand :
    (0x1FF : Word).toNat < 2 ^ (st 3 5).cfg.wDevCmd ∧ 2 ^ (st 3 5).cfg.wDevCmd ≤ (0x200 : Word).toNat ∧
    (st 3 5).wp + ((st 3 5).cfg.wMsgType + (st 3 5).cfg.wDevCmd) = (st 3 5).cfg.capBits ∧
    (st 3 6).cfg.capBits < (st 3 6).wp + cost [⟨1, 7⟩, ⟨0x1FF, 9⟩] := by decide

theorem witness_BeginDcWritesPacketIndex :
    (0xFFFF : Word).toNat < 2 ^ (st 4 5).cfg.wPktIdx ∧ 2 ^ (st 4 5).cfg.wPktIdx ≤ (0x10000 : Word).toNat ∧
    (st 4 5).wp + cost [⟨2, 7⟩, ⟨0xFFFF, 16⟩] = (st 4 5).cfg.capBits ∧
    (st 4 6).cfg.capBits < (st 4 6).wp + cost [⟨2, 7⟩, ⟨0xFFFF, 16⟩] := by decide

theorem witness_EndDcWritesTag :
    (2 : Word) ≠ 0 ∧ (st 1 4).wp + cost [⟨1, 3⟩] = (st 1 4).cfg.capBits ∧
    (st 1 5).cfg.capBits < (st 1 5).wp + cost [⟨0, 3⟩] := by decide

/-- Counts 0, 1, 15, 16, 255, 256 and 510: each clause at both ends of its range. -/
theorem witness_SkipEncodesByTier :
    (st 3 0).cfg.legal = true ∧ (0 : Word).toInt ≤ 0 ∧
    (1 ≤ (1 : Word).toInt ∧ (15 : Word).toInt ≤ (st 3 0).cfg.fewMax) ∧
    (((st 3 0).cfg.fewMax : Int) < (16 : Word).toInt ∧ (255 : Word).toInt ≤ (st 3 0).cfg.manyMax) ∧
    (((st 3 0).cfg.manyMax : Int) < (256 : Word).toInt ∧ 1 * (st 3 0).cfg.manyMax + 1 = (256 : Word).toNat) ∧
    1 * (st 3 0).cfg.manyMax + 255 = (510 : Word).toNat := by decide

/-- Count 256, with room and without. -/
theorem witness_SkipClosedForm :
    (st 3 3).cfg.legal = true ∧ 1 ≤ (256 : Word).toInt ∧ 1 = ((256 : Word).toNat - 1) / (st 3 3).cfg.manyMax ∧
    1 = (256 : Word).toNat - 1 * (st 3 3).cfg.manyMax ∧
    exec (.skip 256) (st 3 3) = .next (after (.skip 256) (st 3 3)) ∧
    exec (.skip 256) (st 3 4) = .next (after (.skip 256) (st 3 4)) :=
  ⟨by decide, by decide, by decide, by decide, exec_after (by decide), exec_after (by decide)⟩

/-- Count 0; a payload one short; a byte too wide for a 7-bit byte field; the exact payload, with room and
without. -/
theorem witness_SetSeqWritesBytes :
    isBytePayload [7, 0x80] = true ∧ (0 : Word).toInt ≤ 0 ∧
    (1 ≤ (3 : Word).toInt ∧ [7, (0x80 : Word)].length < (3 : Word).toNat) ∧
    ((2 : Word).toNat ≤ [7, (0x80 : Word)].length ∧
      ∃ v ∈ [7, (0x80 : Word)].take 2, 2 ^ (Cfg.wByte { Config.defaults 5 with wByte := 7 }) ≤ v.toNat) ∧
    (∀ v ∈ [7, (0x80 : Word)].take 2, v.toNat < 2 ^ (st 5 0).cfg.wByte) ∧
    seen (exec (.setSeq 3 [7, 7, 9]) (st 5 5)) = some (true, 0, 35, [0x00, 0x0F, 0x3C, 0x30, 0x02]) ∧
    seen (exec (.setSeq 3 [7, 7, 9]) (st 5 6)) = some (false, 0, 6, [0]) := by
  refine ⟨by decide, by decide, by decide, ⟨by decide, 0x80, by simp, by decide⟩, ?_, by decide, by decide⟩
  intro v hv
  simp only [List.take_succ_cons, List.take_zero, List.mem_cons, List.not_mem_nil, or_false] at hv
  rcases hv with rfl | rfl <;> decide

theorem witness_SetSeqCost :
    isBytePayload [7, 7, 9] = true ∧ 8 ≤ (st 5 5).cfg.wByte ∧ 1 ≤ (3 : Word).toInt ∧
    (3 : Word).toNat ≤ [7, 7, (9 : Word)].length := by decide

/-- Counts 0, 1, 2, 15, 16 and 255; a value and a last value one too wide. -/
theorem witness_SetRptEncodesByCase :
    (st 3 0).cfg.legal = true ∧ (0 : Word).toInt ≤ 0 ∧
    (1 ≤ (1 : Word).toInt ∧ 2 ^ (st 3 0).cfg.wByte ≤ (0x100 : Word).toNat) ∧
    ((0xFF : Word).toNat < 2 ^ (st 3 0).cfg.wByte ∧ (0x20 : Word) ≠ 0xFF) ∧ (1 : Word).toInt = 1 ∧
    (2 ≤ (2 : Word).toInt ∧ (15 : Word).toInt ≤ (st 3 0).cfg.fewMax) ∧
    (((st 3 0).cfg.fewMax : Int) < (16 : Word).toInt ∧ (255 : Word).toInt ≤ (st 3 0).cfg.manyMax) := by decide

/-- Counts 256 and 510. -/
theorem witness_SetRptSplitsLargeCounts :
    (st 3 0).cfg.legal = true ∧ (0x20 : Word).toNat < 2 ^ (st 3 0).cfg.wByte ∧
    (((st 3 0).cfg.manyMax : Int) < (256 : Word).toInt ∧ 1 * (st 3 0).cfg.manyMax + 1 = (256 : Word).toNat) ∧
    1 * (st 3 0).cfg.manyMax + 255 = (510 : Word).toNat ∧ 255 ≤ (st 3 0).cfg.manyMax := by decide

theorem witness_SetRptClosedForm :
    (st 4 2).cfg.legal = true ∧ 1 ≤ (260 : Word).toInt ∧ 1 = ((260 : Word).toNat - 1) / (st 4 2).cfg.manyMax ∧
    5 = (260 : Word).toNat - 1 * (st 4 2).cfg.manyMax ∧
    exec (.setRpt 0x20 0x20 260) (st 4 2) = .next (after (.setRpt 0x20 0x20 260) (st 4 2)) ∧
    exec (.setRpt 0x20 0x20 260) (st 4 3) = .next (after (.setRpt 0x20 0x20 260) (st 4 3)) :=
  ⟨by decide, by decide, by decide, by decide, exec_after (by decide), exec_after (by decide)⟩

/-- Two last values that differ from the value, and a count whose tail is in the large tier. -/
theorem witness_LastValueOnlySelectsTag :
    (st 3 0).cfg.singleByteSource = .value ∧ (0x21 : Word).toNat < 2 ^ (st 3 0).cfg.wByte ∧
    (0xFF : Word).toNat < 2 ^ (st 3 0).cfg.wByte ∧ ((0x20 : Word) = 0x21 ↔ (0x20 : Word) = 0xFF) ∧
    (st 3 0).cfg.legal = true ∧ (st 3 0).cfg.fewMax < tailCount (st 3 0).cfg.manyMax (271 : Word).toNat := by
  decide

theorem witness_SingleCopyIsSequence :
    (st 2 0).cfg.singleByteSource = .value ∧ (st 2 0).cfg.legal = true ∧ (0xFF : Word).toNat < 2 ^ 8 ∧
    (0xFF : Word).toNat < 2 ^ (st 2 0).cfg.wByte := by decide

/-- Both commands, each with a chunk written and rolled back (V-S2). -/
theorem witness_MultiStepRollback :
    exec (.skip 256) (st 3 4) = .next (after (.skip 256) (st 3 4)) ∧ Answered false (after (.skip 256) (st 3 4)) ∧
    exec (.setRpt 0x20 0x20 260) (st 4 3) = .next (after (.setRpt 0x20 0x20 260) (st 4 3)) ∧
    Answered false (after (.setRpt 0x20 0x20 260) (st 4 3)) := by
  unfold Answered
  exact ⟨exec_after (by decide), by decide, exec_after (by decide), by decide⟩

/-- Counts 2 and 15, ending exactly at the capacity. -/
theorem witness_FewWithLastIsShortest :
    (st 1 0).cfg = Config.defaults 1 ∧ (0xFF : Word).toNat < 256 ∧ 2 ≤ (2 : Word).toInt ∧
    (15 : Word).toInt ≤ 15 ∧ (st 1 0).wp + 7 ≤ (st 1 0).cfg.capBits := by decide

/-- Two words and three, with room for three and without. -/
theorem witness_ProgEvtCopiesWords :
    (st 15 2).cfg.legal = true ∧
    [1, (2 : Word)].length < (st 15 2).cfg.nProgWords ∧ (st 15 2).cfg.nProgWords ≤ [0, 0, (0 : Word)].length ∧
    (exec (.progEvt [0, 0, 0]) (st 15 2) = .next (after (.progEvt [0, 0, 0]) (st 15 2)) ∧
      (after (.progEvt [0, 0, 0]) (st 15 2)).wp = (st 15 2).cfg.capBits) ∧
    seen (exec (.progEvt [0, 0, 0]) (st 15 3)) = some (false, 0, 3, [0]) :=
  ⟨by decide, by decide, by decide, ⟨exec_after (by decide), by decide⟩, by decide⟩

/-- Sizes 127 and 128; a payload one short; an element one too large; an exact fit and one byte more. -/
theorem witness_FwChunkWritesPayload :
    (st 8 0).cfg.legal = true ∧
    (127 : Word).toNat < 2 ^ (st 8 0).cfg.wFwSize ∧ 2 ^ (st 8 0).cfg.wFwSize ≤ (128 : Word).toNat ∧
    [(1 : Word)].length < (2 : Word).toNat ∧ (∃ v ∈ [(0x80 : Word)].take 1, 2 ^ 7 ≤ v.toNat) ∧
    seen (exec (.fwChunk 6 [1, 2, 3, 4, 5, 6]) (st 8 0)) = some (true, 0, 56, [4, 6, 1, 2, 3, 4, 5, 6]) ∧
    seen (exec (.fwChunk 7 [1, 2, 3, 4, 5, 6, 7]) (st 8 0)) = some (false, 0, 0, []) :=
  ⟨by decide, by decide, by decide, by decide, ⟨0x80, by decide, by decide⟩, by decide, by decide⟩

/-- P4 row 3: a chunk of four bytes from byte 1 on. -/
theorem witness_AlignedFwChunkBytes :
    (st 24 7).cfg.legal = true ∧
    (st 24 7).cfg.wMsgType = 7 ∧ (st 24 7).cfg.wFwSize = 7 ∧ (st 24 7).wp % 7 = 0 ∧
    exec (.fwChunk 4 [1, 2, 3, 0x7F]) (st 24 7) = .next (after (.fwChunk 4 [1, 2, 3, 0x7F]) (st 24 7)) ∧
    Answered true (after (.fwChunk 4 [1, 2, 3, 0x7F]) (st 24 7)) ∧
    3 < [1, 2, 3, (0x7F : Word)].length ∧ 3 < (4 : Word).toNat := by
  unfold Answered
  exact ⟨by decide, by decide, by decide, by decide, exec_after (by decide), by decide, by decide, by decide⟩

/-- A configuration with an empty footer, the one packer command that can cost nothing beside the trivial counts. -/
def stNoFooter (wp : Nat) : State := { st 2 wp with cfg := { Config.defaults 2 with footerSeq := [] } }

/-- Every clause: the premises the clauses share, then for each kind of command the phases it may lead from, one
it may not, a payload command of no bits, and a restore to the boundary and below it. -/
theorem witness_LifeCyclePhases :
    ((st 2 7).cfg.legal = true ∧ (st 2 7).wp ≤ (st 2 7).cfg.capBits ∧
      ran (exec .reset (st 2 7)) = true ∧ phaseNext none .reset (st 2 7) (after .reset (st 2 7)) = some ⟨.empty, 0⟩ ∧
      phaseNext none .footer (st 2 7) (after .footer (st 2 7)) = none) ∧
    (Answered true (after (.header 5) (st 2 0)) ∧
      phaseNext (some ⟨.empty, 0⟩) (.header 5) (st 2 0) (after (.header 5) (st 2 0)) = some ⟨.framed, 7⟩ ∧
      phaseNext (some ⟨.framed, 7⟩) (.header 5) (st 2 7) (after (.header 5) (st 2 7)) = none) ∧
    (Answered true (after (.endDc 0) (st 2 7)) ∧ bitCost (st 2 7).cfg (.endDc 0) = 3 ∧
      phaseNext (some ⟨.framed, 7⟩) (.endDc 0) (st 2 7) (after (.endDc 0) (st 2 7)) = some ⟨.building, 7⟩ ∧
      phaseNext (some ⟨.finalized, 7⟩) (.endDc 0) (st 2 7) (after (.endDc 0) (st 2 7)) = none) ∧
    (Answered true (after (.skip 0) (st 2 7)) ∧ bitCost (st 2 7).cfg (.skip 0) = 0 ∧
      phaseNext (some ⟨.finalized, 7⟩) (.skip 0) (st 2 7) (after (.skip 0) (st 2 7)) = some ⟨.finalized, 7⟩) ∧
    (Answered true (after .footer (st 2 7)) ∧
      phaseNext (some ⟨.building, 7⟩) .footer (st 2 7) (after .footer (st 2 7)) = some ⟨.finalized, 14⟩ ∧
      phaseNext (some ⟨.empty, 0⟩) .footer (st 2 7) (after .footer (st 2 7)) = none) ∧
    ((stNoFooter 7).cfg.legal = true ∧ Answered true (after .footer (stNoFooter 7)) ∧
      phaseNext (some ⟨.framed, 7⟩) .footer (stNoFooter 7) (after .footer (stNoFooter 7)) =
        some ⟨.finalized, 7⟩) ∧
    (Answered false (after .footer (st 2 8)) ∧
      phaseNext (some ⟨.building, 7⟩) .footer (st 2 8) (after .footer (st 2 8)) = some ⟨.building, 7⟩) ∧
    (ran (exec (.write 1 1) (st 2 7)) = true ∧
      phaseNext (some ⟨.framed, 7⟩) (.write 1 1) (st 2 7) (after (.write 1 1) (st 2 7)) = none) ∧
    (ran (exec (.restore 7) (st 2 10)) = true ∧
      phaseNext (some ⟨.building, 7⟩) (.restore 7) (st 2 10) (after (.restore 7) (st 2 10)) =
        some ⟨.building, 7⟩ ∧
      phaseNext (some ⟨.building, 7⟩) (.restore 6) (st 2 10) (after (.restore 6) (st 2 10)) = none) := by
  unfold Answered
  decide

/-- A restore to the boundary, where the two sides are equal. -/
theorem witness_PhaseBoundaryStaysValid :
    exec (.restore 7) (st 2 10) = .next (after (.restore 7) (st 2 10)) ∧ 7 ≤ (st 2 10).wp ∧
    phaseNext (some ⟨.building, 7⟩) (.restore 7) (st 2 10) (after (.restore 7) (st 2 10)) =
      some ⟨.building, 7⟩ ∧ (after (.restore 7) (st 2 10)).wp = 7 :=
  ⟨exec_after (by decide), by decide, by decide, by decide⟩

/-- A restore to `p` itself, with valid bits below it, and a command that writes over stale bits. -/
theorem witness_BitsBelowPositionStay :
    exec (.restore 2) (st 2 3) = .next (after (.restore 2) (st 2 3)) ∧ KeepsBelow 2 (.restore 2) ∧
      2 ≤ (st 2 3).wp ∧
    exec (.endDc 1) (stStale 1 3) = .next (after (.endDc 1) (stStale 1 3)) ∧ KeepsBelow 3 (.endDc 1) :=
  ⟨exec_after (by decide), ⟨by decide, fun sp h => by cases h; decide⟩, by decide, exec_after (by decide),
    ⟨by decide, fun sp h => by cases h⟩⟩

end Sys2Proof.Tests
end

section
/-! What a step does (R16, R18, R23): one rule for an idle command port and one for an issued command, each
through what the port hands out. -/

namespace Sys2Proof.Machine

/-! ### The command port -/

theorem State.fetch_of_commands_nil {s : State} (h : s.commands = []) : s.fetch = none := by
  simp only [State.fetch, h]

theorem State.fetch_of_commands_cons {s : State} {c : Command} {rest : List Command}
    (h : s.commands = c :: rest) : s.fetch = some (c, { s with commands := rest }) := by
  simp only [State.fetch, h]

/-! ### One step -/

theorem step_of_fetch_none {s : State} (h : s.fetch = none) : step s = .next s := by
  simp only [step, h]

theorem step_of_fetch_some {s s' : State} {c : Command} {i : Instr}
    (hf : s.fetch = some (c, s')) (hd : decode c = .ok i) : step s = exec i s' := by
  simp only [step, hf, hd]

/-! ### The statements -/

/-- Settles O5: the port hands out the head of the queue, and the step performs what it decodes to. -/
theorem stepRunsDecodedCommand : Obligations.StepRunsDecodedCommand := by
  intro s c rest i hc hd
  exact step_of_fetch_some (State.fetch_of_commands_cons hc) hd

/-- Settles O6: an empty queue hands out no command, and the step is then idle. -/
theorem idleStepChangesNothing : Obligations.IdleStepChangesNothing := by
  intro s hc
  exact step_of_fetch_none (State.fetch_of_commands_nil hc)

end Sys2Proof.Machine
end

section
/-! The invariant of every reachable state (R7, R22, R41, R50): each way a command changes the state keeps it,
hence every command, hence every step. -/

namespace Sys2Proof.Machine

/-! ### The ways a state changes -/

theorem inv_answer {s : State} (h : Inv s) (r : Response) : Inv (s.answer r) := h

theorem inv_setWp {s : State} (h : Inv s) {p : Nat} (hp : p ≤ s.wp) : Inv (s.setWp p) := by
  obtain ⟨hl, hwp, hrest⟩ := h
  exact ⟨hl, hp.trans hwp, hrest⟩

theorem inv_fresh {s : State} (h : Inv s) : Inv s.fresh := by
  obtain ⟨hl, -, -, -, hd⟩ := h
  exact ⟨hl, Nat.zero_le _, Memory.wf_unspecified _ _, memInStore_unspecified _ _, hd⟩

/-- The taken command is no part of the invariant. -/
theorem inv_fetch {s s' : State} {c : Command} (h : Inv s) (hf : s.fetch = some (c, s')) : Inv s' := by
  unfold State.fetch at hf
  split at hf
  · cases hf
  · cases hf; exact h

theorem inv_append {s : State} (h : Inv s) {f : Field} (hf : s.wp + f.width ≤ s.cfg.capBits) :
    Inv (s.append f) := by
  obtain ⟨hl, -, hw, hm, hd⟩ := h
  have hcap : s.wp + f.width ≤ s.cfg.maxBytes * Config.cellBits := by rwa [Cfg.legal_capBits hl] at hf
  exact ⟨hl, hf, Memory.wf_writeField hw _ _ _, memInStore_writeField hm hcap, hd⟩

theorem inv_appendAll {s : State} (h : Inv s) {fs : List Field} (hf : s.wp + cost fs ≤ s.cfg.capBits) :
    Inv (s.appendAll fs) := by
  induction fs generalizing s with
  | nil => exact h
  | cons f fs ih =>
    rw [cost_cons] at hf
    exact ih (inv_append h (by omega)) (by rw [State.append_wp, State.append_cfg]; omega)

theorem inv_appendAll_of_appendable {s : State} (h : Inv s) {fs : List Field} (hf : Appendable s fs) :
    Inv (s.appendAll fs) := by
  rcases hf with rfl | hf
  · exact h
  · exact inv_appendAll h hf

theorem inv_packerNext {s t : State} (h : Inv s) (ht : PackerNext s t) : Inv t := by
  rcases ht with ⟨fs, hf, rfl⟩ | ⟨fs, hf, rfl⟩
  · exact inv_answer (inv_appendAll_of_appendable h hf) _
  · exact inv_answer (inv_setWp (inv_appendAll_of_appendable h hf) (by simp)) _

/-! ### Commands and steps -/

theorem inv_exec {i : Instr} {s t : State} (h : Inv s) (he : exec i s = .next t) : Inv t := by
  rcases exec_next he with ⟨-, rfl⟩ | ⟨sp, -, hsp, rfl⟩ | ⟨-, r, -, rfl⟩ | ⟨v, w, -, -, hcap, rfl⟩ | ⟨-, hp⟩
  · exact inv_answer (inv_fresh h) _
  · exact inv_answer (inv_setWp h hsp) _
  · exact inv_answer h r
  · exact inv_answer (inv_append h hcap) _
  · exact inv_packerNext h hp

/-- What a completed step did: nothing at an idle port, else one decoded command, taken off the queue. -/
theorem step_next {s t : State} (h : step s = .next t) :
    (s.commands = [] ∧ t = s) ∨
    ∃ c s' i, s.fetch = some (c, s') ∧ s'.cfg = s.cfg ∧ s'.commands = s.commands.tail ∧ exec i s' = .next t := by
  cases hc : s.commands with
  | nil =>
    rw [step_of_fetch_none (State.fetch_of_commands_nil hc)] at h
    exact .inl ⟨rfl, (Host.Outcome.next.inj h).symm⟩
  | cons c rest =>
    have hf := State.fetch_of_commands_cons hc
    cases hd : decode c with
    | error e => simp [step, hf, hd] at h
    | ok i =>
      rw [step_of_fetch_some hf hd] at h
      exact .inr ⟨c, _, i, hf, rfl, rfl, h⟩

/-- Settles O8: an idle step changes nothing, and every command keeps the invariant. -/
theorem stepKeepsInvariant : Obligations.StepKeepsInvariant := by
  intro s t hs h
  rcases step_next h with ⟨-, rfl⟩ | ⟨c, s', i, hf, -, -, he⟩
  · exact hs
  · exact inv_exec (inv_fetch hs hf) he

/-- Settles O7: the default configuration is legal, and the storage lists no cell. -/
theorem resetStateMeetsInvariant : Obligations.ResetStateMeetsInvariant :=
  ⟨⟨by decide, Nat.zero_le _, rfl, rfl, rfl⟩, rfl, rfl, rfl⟩

/-! ### The constants and the queue -/

/-- No command writes a constant or the queue of issued commands (R25). -/
theorem exec_cfg_commands {i : Instr} {s t : State} (he : exec i s = .next t) :
    t.cfg = s.cfg ∧ t.commands = s.commands := by
  rcases exec_next he with ⟨-, rfl⟩ | ⟨sp, -, -, rfl⟩ | ⟨-, r, -, rfl⟩ | ⟨v, w, -, -, -, rfl⟩ |
    ⟨-, ⟨fs, -, rfl⟩ | ⟨fs, -, rfl⟩⟩
  · exact ⟨rfl, rfl⟩
  · exact ⟨rfl, rfl⟩
  · exact ⟨rfl, rfl⟩
  · exact ⟨rfl, rfl⟩
  · exact ⟨by simp, by simp⟩
  · exact ⟨(rolledBack_keepsHost s fs).1, (rolledBack_keepsHost s fs).2.1⟩

/-- Settles O9: an idle queue has no tail, and the command taken off the queue writes neither. -/
theorem stepKeepsConstants : Obligations.StepKeepsConstants := by
  intro s t h
  rcases step_next h with ⟨hc, rfl⟩ | ⟨c, s', i, -, hcfg, hcmd, he⟩
  · exact ⟨rfl, by rw [hc, List.tail_nil]⟩
  · obtain ⟨hcfg', hcmd'⟩ := exec_cfg_commands he
    exact ⟨hcfg'.trans hcfg, hcmd'.trans hcmd⟩

end Sys2Proof.Machine
end

section
/-! Stale bits are unobservable (R27, R29): emissions, split emissions and rollbacks from two states the host cannot
tell apart give such states and the same answer, and every test a command makes reads constants, `WP` and operands
only. -/

namespace Sys2Proof.Machine

/-- Two ends of an emission the host cannot tell apart. -/
def SameEnd (r r' : State × Bool) : Prop := r.2 = r'.2 ∧ ObsEq r.1 r'.1

/-! ### Emissions -/

/-- Lowering `WP` to one common position keeps two states indistinguishable. -/
theorem obsEq_setWp {s t : State} (h : ObsEq s t) {p : Nat} (hp : p ≤ s.wp) : ObsEq (s.setWp p) (t.setWp p) := by
  obtain ⟨hcfg, -, hbits⟩ := h
  exact ⟨hcfg, rfl, fun k hk => hbits k (Nat.lt_of_lt_of_le hk hp)⟩

theorem emitChunks_sameEnd {s t : State} (h : ObsEq s t) (chunk : List Field) (tail : Nat → List Field)
    (countMax rounds n : Nat) :
    SameEnd (s.emitChunks chunk tail countMax rounds n) (t.emitChunks chunk tail countMax rounds n) := by
  induction rounds generalizing n s t with
  | zero => exact h.emit (tail n)
  | succ rounds ih =>
    unfold State.emitChunks
    by_cases hlt : countMax < n
    · rw [if_pos hlt, if_pos hlt]
      obtain ⟨hok, hobs⟩ := h.emit chunk
      generalize s.emit chunk = r at hok hobs ⊢
      generalize t.emit chunk = r' at hok hobs ⊢
      obtain ⟨s', ok⟩ := r
      obtain ⟨t', ok'⟩ := r'
      cases hok
      cases ok with
      | false => exact ⟨rfl, hobs⟩
      | true => exact ih hobs (n - countMax)
    · rw [if_neg hlt, if_neg hlt]
      exact h.emit (tail n)

theorem le_wp_emitChunks (s : State) (chunk : List Field) (tail : Nat → List Field) (countMax rounds n : Nat) :
    s.wp ≤ (s.emitChunks chunk tail countMax rounds n).1.wp := by
  obtain ⟨fs, hfs, -⟩ := State.emitChunks_appends chunk tail countMax rounds n s
  rw [hfs, State.appendAll_wp]
  exact Nat.le_add_right _ _

theorem rollback_sameEnd {r r' : State × Bool} (h : SameEnd r r') {p : Nat} (hp : p ≤ r.1.wp) :
    SameEnd (rollback p r) (rollback p r') := by
  obtain ⟨s', ok⟩ := r
  obtain ⟨t', ok'⟩ := r'
  obtain ⟨hok, hobs⟩ := h
  cases hok
  cases ok with
  | false => exact ⟨rfl, obsEq_setWp hobs hp⟩
  | true => exact ⟨rfl, hobs⟩

/-! ### How a command ends -/

theorem sameOutcome_answer {s t : State} (h : ObsEq s t) (r : Response) :
    SameOutcome (.next (s.answer r)) (.next (t.answer r)) := ⟨h, rfl⟩

theorem sameOutcome_finish {r r' : State × Bool} (h : SameEnd r r') :
    SameOutcome (State.finish r) (State.finish r') := by
  obtain ⟨hok, hobs⟩ := h
  exact ⟨hobs, by simp [hok]⟩

theorem sameOutcome_finishEmit {s t : State} (h : ObsEq s t) (fs : List Field) :
    SameOutcome (s.finishEmit fs) (t.finishEmit fs) := sameOutcome_finish (h.emit fs)

theorem sameOutcome_finishChunks {s t : State} (h : ObsEq s t) (chunk : List Field) (tail : Nat → List Field)
    (countMax n : Nat) :
    SameOutcome (State.finish (rollback s.wp (s.emitChunks chunk tail countMax n n)))
      (State.finish (rollback s.wp (t.emitChunks chunk tail countMax n n))) :=
  sameOutcome_finish (rollback_sameEnd (emitChunks_sameEnd h chunk tail countMax n n)
    (le_wp_emitChunks s chunk tail countMax n n))

/-- One test, passed or failed on both sides alike. -/
theorem sameOutcome_ite {p : Prop} [Decidable p] {a a' b b' : Result} (ht : SameOutcome a a')
    (he : SameOutcome b b') : SameOutcome (if p then a else b) (if p then a' else b') := by
  split
  · exact ht
  · exact he

theorem sameOutcome_refused (r : Refusal) : SameOutcome (.refused r) (.refused r) := rfl

/-- Two outcomes the host cannot tell apart are of the same kind. -/
theorem sameOutcome_cases {r r' : Result} (h : SameOutcome r r') :
    (∃ s t, r = .next s ∧ r' = .next t ∧ ObsEq s t ∧ s.response = t.response) ∨
    (∃ f, r = .fault f ∧ r' = .fault f) ∨ (∃ f, r = .refused f ∧ r' = .refused f) := by
  cases r with
  | next s =>
    cases r' with
    | next t => exact .inl ⟨s, t, rfl, rfl, h⟩
    | fault _ => exact False.elim h
    | refused _ => exact False.elim h
  | fault f =>
    cases r' with
    | next _ => exact False.elim h
    | fault _ => cases h; exact .inr (.inl ⟨f, rfl, rfl⟩)
    | refused _ => exact False.elim h
  | refused f =>
    cases r' with
    | next _ => exact False.elim h
    | fault _ => exact False.elim h
    | refused _ => cases h; exact .inr (.inr ⟨f, rfl, rfl⟩)

/-! ### The statements -/

/-- Settles O11: along the meaning of each command, every test agrees and every end is the same end. -/
theorem staleBitsUnobservable : Obligations.StaleBitsUnobservable := by
  intro i s t h
  have hcfg := h.1
  have hwp := h.2.1
  have hcap : ∀ n, t.hasCap n = s.hasCap n := fun n => by simp only [State.hasCap, hcfg, hwp]
  cases i with
  | reset => exact ⟨⟨hcfg, rfl, fun k hk => absurd hk (Nat.not_lt_zero k)⟩, rfl⟩
  | hasCap bits =>
    simp only [exec, execHasCap, hcap]
    exact sameOutcome_answer h _
  | write value width =>
    simp only [exec, execWrite, hcap, ← hcfg]
    exact sameOutcome_ite (sameOutcome_refused _) (sameOutcome_ite (sameOutcome_refused _)
      (sameOutcome_ite (sameOutcome_refused _)
        (sameOutcome_answer (h.appendAll [⟨operandU value, operandU width⟩]) _)))
  | checkpoint =>
    simp only [exec, execCheckpoint, ← hwp]
    exact sameOutcome_answer h _
  | restore sp =>
    simp only [exec, execRestore, ← hwp]
    split
    · exact sameOutcome_refused _
    · next hsp => exact sameOutcome_answer (obsEq_setWp h (Decidable.not_not.1 hsp)) _
  | getData =>
    simp only [exec, execGetData, State.len, ← hcfg, ← hwp, ← h.message]
    exact sameOutcome_ite rfl (sameOutcome_answer h _)
  | header d =>
    simp only [exec, execHeader, ← hcfg]
    exact sameOutcome_ite (sameOutcome_refused _) (sameOutcome_finishEmit h _)
  | footer =>
    simp only [exec, execFooter, ← hcfg]
    exact sameOutcome_finishEmit h _
  | devCtrl c =>
    simp only [exec, execDevCtrl, ← hcfg]
    exact sameOutcome_ite (sameOutcome_refused _) (sameOutcome_finishEmit h _)
  | beginDc p =>
    simp only [exec, execBeginDc, ← hcfg]
    exact sameOutcome_ite (sameOutcome_refused _) (sameOutcome_finishEmit h _)
  | endDc l =>
    simp only [exec, execEndDc, ← hcfg]
    exact sameOutcome_finishEmit h _
  | skip n =>
    simp only [exec, execSkip, ← hcfg, ← hwp]
    exact sameOutcome_ite (sameOutcome_finish ⟨rfl, h⟩) (sameOutcome_finishChunks h _ _ _ _)
  | setSeq num payload =>
    simp only [exec, execSetSeq, ← hcfg]
    exact sameOutcome_ite (sameOutcome_finish ⟨rfl, h⟩) (sameOutcome_ite (sameOutcome_refused _)
      (sameOutcome_ite (sameOutcome_refused _) (sameOutcome_finishEmit h _)))
  | setRpt v l num =>
    simp only [exec, execSetRpt, ← hcfg, ← hwp]
    exact sameOutcome_ite (sameOutcome_finish ⟨rfl, h⟩) (sameOutcome_ite (sameOutcome_refused _)
      (sameOutcome_finishChunks h _ _ _ _))
  | progEvt payload =>
    simp only [exec, execProgEvt, ← hcfg]
    exact sameOutcome_ite (sameOutcome_refused _) (sameOutcome_finishEmit h _)
  | fwChunk size payload =>
    simp only [exec, execFwChunk, ← hcfg]
    exact sameOutcome_ite (sameOutcome_refused _) (sameOutcome_ite (sameOutcome_refused _)
      (sameOutcome_ite (sameOutcome_refused _) (sameOutcome_finishEmit h _)))

/-- Settles O12, by induction on the list: each command ends alike and leaves states the host cannot tell apart. -/
theorem responsesIgnoreStaleBits : Obligations.ResponsesIgnoreStaleBits := by
  intro is
  induction is with
  | nil => intro s t _; rfl
  | cons i is ih =>
    intro s t h
    unfold responses
    rcases sameOutcome_cases (staleBitsUnobservable i s t h) with
      ⟨s', t', hs, ht, hobs, hresp⟩ | ⟨f, hs, ht⟩ | ⟨f, hs, ht⟩
    · simp only [hs, ht, hresp, ih s' t' hobs]
    · simp only [hs, ht]
    · simp only [hs, ht]

end Sys2Proof.Machine
end

section
/-! What every command does to `WP` and to the response (R21, R22, R26, R100, R180). -/

namespace Sys2Proof.Machine

/-! ### The write position -/

theorem packerNext_le_wp {s t : State} (h : PackerNext s t) : s.wp ≤ t.wp := by
  rcases h with ⟨fs, -, rfl⟩ | ⟨fs, -, rfl⟩
  · simp
  · exact Nat.le_refl _

/-- Settles O13: the queries leave `WP`, appending raises it, and a rollback goes back to where it stood. -/
theorem writePositionNeverShrinks : Obligations.WritePositionNeverShrinks := by
  intro i s t he hreset hrestore
  rcases exec_next he with ⟨hi, -⟩ | ⟨sp, hi, -⟩ | ⟨-, r, -, rfl⟩ | ⟨v, w, -, -, -, rfl⟩ | ⟨-, hp⟩
  · exact absurd hi hreset
  · exact absurd hi (hrestore sp)
  · exact Nat.le_refl _
  · exact Nat.le_add_right _ _
  · exact packerNext_le_wp hp

/-- Settles O18: `W_POS` is the least exponent whose power of two exceeds `CAP_BITS`. -/
theorem writePositionFitsRegister : Obligations.WritePositionFitsRegister := by
  intro s hwp
  refine ⟨?_, fun w hw => ?_⟩
  · exact Nat.lt_of_lt_of_le (Nat.lt_succ_of_le hwp) (Nat.le_pow_clog (by decide) _)
  · exact Nat.clog_le_of_le_pow (hw s.cfg.capBits (Nat.le_refl _))

/-! ### The response -/

theorem packerNext_response {s t : State} (h : PackerNext s t) : ∃ ok, t.response = some ⟨ok, 0, []⟩ := by
  rcases h with ⟨fs, -, rfl⟩ | ⟨fs, -, rfl⟩
  · exact ⟨true, rfl⟩
  · exact ⟨false, rfl⟩

/-- The form of response R26 allows a command. -/
def ResponseShape (i : Instr) (r : Response) : Prop :=
  (r.bytes ≠ [] → i = .getData) ∧
  (r.val ≠ 0 → i = .getData ∨ i = .checkpoint ∨ ∃ bits, i = .hasCap bits) ∧
  (r.ok = false → isPacker i = true)

theorem responseShape_success (i : Instr) : ResponseShape i Response.success :=
  ⟨fun h => absurd rfl h, fun h => absurd rfl h, fun h => by cases h⟩

theorem responseShape_packer {i : Instr} (hi : isPacker i = true) (ok : Bool) : ResponseShape i ⟨ok, 0, []⟩ :=
  ⟨fun h => absurd rfl h, fun h => absurd rfl h, fun _ => hi⟩

/-- A query that answers no bytes. -/
theorem responseShape_value {i : Instr} (hi : i = .checkpoint ∨ ∃ bits, i = .hasCap bits) (v : Word) :
    ResponseShape i (Response.value v) :=
  ⟨fun h => absurd rfl h, fun _ => .inr hi, fun h => by cases h⟩

theorem responseShape_getData {r : Response} (hr : r.ok = true) : ResponseShape .getData r :=
  ⟨fun _ => rfl, fun _ => .inl rfl, fun h => by rw [hr] at h; cases h⟩

/-- Settles O17: by the shapes of a next state, only a query answers more than its success or failure. -/
theorem everyCommandAnswers : Obligations.EveryCommandAnswers := by
  intro i s t he
  rcases exec_next he with ⟨-, rfl⟩ | ⟨sp, -, -, rfl⟩ | ⟨rfl | rfl | ⟨bits, rfl⟩, r, hr, rfl⟩ |
    ⟨v, w, -, -, -, rfl⟩ | ⟨hi, hp⟩
  · exact ⟨_, rfl, responseShape_success i⟩
  · exact ⟨_, rfl, responseShape_success i⟩
  · exact ⟨r, rfl, responseShape_getData hr⟩
  · cases he; exact ⟨_, rfl, responseShape_value (.inl rfl) _⟩
  · cases he; exact ⟨_, rfl, responseShape_value (.inr ⟨bits, rfl⟩) _⟩
  · exact ⟨_, rfl, responseShape_success i⟩
  · obtain ⟨ok, hok⟩ := packerNext_response hp
    exact ⟨_, hok, responseShape_packer hi ok⟩

end Sys2Proof.Machine
end

section
/-! The frame of every command but RESET (R28, R40, R43, R50): a packer command writes its layout whole, or rolls
back the chunks that fitted, which is as many bits as `reach` counts. -/

namespace Sys2Proof.Machine

/-! ### The exact end of a packer command -/

/-- A packer command's next state in terms of its layout: all of it appended, or, when it does not fit, exactly the
bits `reach` counts appended and rolled back (R28, R121). -/
def LayoutNext (i : Instr) (s t : State) : Prop :=
  (bitCost s.cfg i = reach s i ∧ t = (s.appendAll (layout s.cfg i)).answer ⟨true, 0, []⟩) ∨
  (s.cfg.capBits < s.wp + bitCost s.cfg i ∧ ∃ fs, cost fs = reach s i ∧ t = rolledBack s fs)

theorem reach_fits {i : Instr} {s : State} (h : s.wp + bitCost s.cfg i ≤ s.cfg.capBits) :
    reach s i = bitCost s.cfg i := if_pos h

theorem reach_full {i : Instr} {s : State} (h : s.cfg.capBits < s.wp + bitCost s.cfg i) :
    reach s i = (chunkPlan s.cfg i).1 *
      min (chunkPlan s.cfg i).2 ((s.cfg.capBits - s.wp) / (chunkPlan s.cfg i).1) := if_neg (by omega)

/-- A command that costs nothing and plans no chunk reaches no bit, even of an overfull store. -/
theorem reach_of_cost_zero {i : Instr} {s : State} (hc : bitCost s.cfg i = 0) (hp : (chunkPlan s.cfg i).2 = 0) :
    reach s i = 0 := by simp [reach, hc, hp]

theorem layoutNext_of_finishEmit {i : Instr} {s t : State} (hp : (chunkPlan s.cfg i).2 = 0)
    (h : s.finishEmit (layout s.cfg i) = .next t) : LayoutNext i s t := by
  by_cases hf : s.wp + bitCost s.cfg i ≤ s.cfg.capBits
  · rw [finishEmit_fits hf] at h
    exact .inl ⟨(reach_fits hf).symm, (Host.Outcome.next.inj h).symm⟩
  · have hfull : s.cfg.capBits < s.wp + bitCost s.cfg i := by omega
    rw [finishEmit_full hfull] at h
    exact .inr ⟨hfull, [], by simp [reach_full hfull, hp], (Host.Outcome.next.inj h).symm⟩

theorem layoutNext_of_trivial {i : Instr} {s t : State} (hlay : layout s.cfg i = [])
    (hp : (chunkPlan s.cfg i).2 = 0) (h : State.finish (s, true) = .next t) : LayoutNext i s t := by
  have hc : bitCost s.cfg i = 0 := by rw [bitCost, hlay, cost_nil]
  refine .inl ⟨hc.trans (reach_of_cost_zero hc hp).symm, ?_⟩
  rw [hlay]
  exact (Host.Outcome.next.inj h).symm

theorem layoutNext_of_emitChunks {i : Instr} {s t : State} {chunk : List Field} {tail : Nat → List Field}
    {countMax n : Nat} (hm : 1 ≤ countMax) (hc : 0 < cost chunk) (hn : 1 ≤ n)
    (hlay : layout s.cfg i = splitFields chunk tail countMax n)
    (hp : chunkPlan s.cfg i = (cost chunk, chunkCount countMax n))
    (h : State.finish (rollback s.wp (s.emitChunks chunk tail countMax n n)) = .next t) : LayoutNext i s t := by
  have hcost : bitCost s.cfg i = cost (splitFields chunk tail countMax n) := by rw [bitCost, hlay]
  by_cases hf : s.wp + bitCost s.cfg i ≤ s.cfg.capBits
  · rw [State.emitChunks_fits hm hn (Nat.le_refl n) (hcost ▸ hf), ← hlay] at h
    exact .inl ⟨(reach_fits hf).symm, (Host.Outcome.next.inj h).symm⟩
  · have hfull : s.cfg.capBits < s.wp + bitCost s.cfg i := by omega
    rw [State.emitChunks_full hm hc hn (Nat.le_refl n) (hcost ▸ hfull)] at h
    exact .inr ⟨hfull, _, by rw [cost_replicate, reach_full hfull, hp, Nat.mul_comm],
      (Host.Outcome.next.inj h).symm⟩

theorem chunkCount_zero (countMax : Nat) : chunkCount countMax 0 = 0 := by simp [chunkCount]

theorem count_of_nonpos {n : Word} (h : operandS n ≤ 0) : count n = 0 := Int.toNat_of_nonpos h

theorem wDcc_pos {cfg : Cfg} (h : cfg.legal = true) : 1 ≤ cfg.wDcc :=
  (Cfg.legal_width h (by simp [Cfg.widths])).1

theorem cost_skipChunk_pos {cfg : Cfg} (h : cfg.legal = true) : 0 < cost (skipChunk cfg) := by
  have := wDcc_pos h
  simp only [skipChunk, cost_cons]
  omega

theorem cost_rptTail_pos {cfg : Cfg} (h : cfg.legal = true) (value lastValue n : Nat) :
    0 < cost (rptTail cfg value lastValue n) := by
  have := wDcc_pos h
  unfold rptTail
  split_ifs <;> simp only [cost_cons] <;> omega

/-- Every `PK.` command that is not refused ends as its layout says. -/
theorem layoutNext_of_exec {i : Instr} {s t : State} (hl : s.cfg.legal = true) (hi : isPacker i = true)
    (h : exec i s = .next t) : LayoutNext i s t := by
  have hm : 1 ≤ s.cfg.manyMax := by have := Cfg.legal_counts hl; omega
  cases i with
  | reset => cases hi
  | hasCap => cases hi
  | write => cases hi
  | checkpoint => cases hi
  | restore => cases hi
  | getData => cases hi
  | header d =>
    simp only [exec, execHeader] at h
    split at h
    · cases h
    · exact layoutNext_of_finishEmit rfl h
  | footer => exact layoutNext_of_finishEmit rfl h
  | devCtrl c =>
    simp only [exec, execDevCtrl] at h
    split at h
    · cases h
    · exact layoutNext_of_finishEmit rfl h
  | beginDc p =>
    simp only [exec, execBeginDc] at h
    split at h
    · cases h
    · exact layoutNext_of_finishEmit rfl h
  | endDc l => exact layoutNext_of_finishEmit rfl h
  | skip n =>
    simp only [exec, execSkip] at h
    split at h
    next hn =>
      exact layoutNext_of_trivial (if_pos hn) (by simp [chunkPlan, count_of_nonpos hn, chunkCount_zero]) h
    next hn =>
      exact layoutNext_of_emitChunks hm (cost_skipChunk_pos hl) (count_pos hn) (if_neg hn) rfl h
  | setSeq num payload =>
    simp only [exec, execSetSeq] at h
    split at h
    next hn => exact layoutNext_of_trivial (if_pos hn) rfl h
    next hn =>
      have hlay : layout s.cfg (.setSeq num payload) = seqFields s.cfg (count num) payload := if_neg hn
      split at h
      · cases h
      · split at h
        · cases h
        · exact layoutNext_of_finishEmit rfl (hlay ▸ h)
  | setRpt v l num =>
    simp only [exec, execSetRpt] at h
    split at h
    next hn =>
      exact layoutNext_of_trivial (if_pos hn) (by simp [chunkPlan, count_of_nonpos hn, chunkCount_zero]) h
    next hn =>
      split at h
      · cases h
      · exact layoutNext_of_emitChunks hm (cost_rptTail_pos hl _ _ _) (count_pos hn) (if_neg hn) rfl h
  | progEvt payload =>
    simp only [exec, execProgEvt] at h
    split at h
    · cases h
    · exact layoutNext_of_finishEmit rfl h
  | fwChunk size payload =>
    simp only [exec, execFwChunk] at h
    split at h
    · cases h
    · split at h
      · cases h
      · split at h
        · cases h
        · exact layoutNext_of_finishEmit rfl h

/-! ### The frame -/

/-- A packer command changes only the bits it reaches. -/
theorem layoutNext_frame {i : Instr} {s t : State} (h : LayoutNext i s t) :
    KeepsOutside (reach s i) s t ∧ KeepsHost s t := by
  rcases h with ⟨hr, rfl⟩ | ⟨-, fs, hr, rfl⟩
  · obtain ⟨-, -, ho, hk⟩ := (Wrote.appendAll s (layout s.cfg i)).answer ⟨true, 0, []⟩
    exact ⟨hr ▸ ho, hk⟩
  · exact ⟨hr ▸ rolledBack_keepsOutside s fs, rolledBack_keepsHost s fs⟩

/-- Settles O15: queries and restores write no bit of the storage, BB.WRITE one field, a packer command what its
layout says. -/
theorem frameOutsideReach : Obligations.FrameOutsideReach := by
  intro i s t hl he hreset
  rcases exec_next he with ⟨hi, -⟩ | ⟨sp, -, -, rfl⟩ | ⟨-, r, -, rfl⟩ | ⟨v, w, rfl, -, hcap, rfl⟩ | ⟨hi, -⟩
  · exact absurd hi hreset
  · exact ⟨KeepsOutside.refl _ s, KeepsHost.refl s⟩
  · exact ⟨KeepsOutside.refl _ s, KeepsHost.refl s⟩
  · obtain ⟨-, -, ho, hk⟩ := (Wrote.append s ⟨operandU v, operandU w⟩).answer Response.success
    have hr : reach s (.write v w) = cost [⟨operandU v, operandU w⟩] := reach_fits hcap
    exact ⟨hr ▸ ho, hk⟩
  · exact layoutNext_frame (layoutNext_of_exec hl hi he)

/-- No command reaches beyond the capacity: the chunks that fit are counted by division (R28). -/
theorem wp_add_reach_le {s : State} (hwp : s.wp ≤ s.cfg.capBits) (i : Instr) :
    s.wp + reach s i ≤ s.cfg.capBits := by
  by_cases hf : s.wp + bitCost s.cfg i ≤ s.cfg.capBits
  · rw [reach_fits hf]; exact hf
  · rw [reach_full (by omega)]
    have hchunks := Nat.mul_le_mul_left (chunkPlan s.cfg i).1
      (Nat.min_le_right (chunkPlan s.cfg i).2 ((s.cfg.capBits - s.wp) / (chunkPlan s.cfg i).1))
    have hroom := Nat.mul_div_le (s.cfg.capBits - s.wp) (chunkPlan s.cfg i).1
    omega

/-- Settles O16: the frame of O15, whose bits all lie below `CAP_BITS` and hence in cells below `MAX_BYTES`. -/
theorem writesStayInStore : Obligations.WritesStayInStore := by
  intro i s t hl hwp he hreset
  obtain ⟨⟨hbit, hcell, -⟩, -⟩ := frameOutsideReach i s t hl he hreset
  have hr := wp_add_reach_le hwp i
  refine ⟨fun k hk => hbit k (by omega), fun n hn => hcell n fun k _ hk heq => ?_⟩
  rw [Cfg.legal_capBits hl] at hr
  have hlt : streamCell k < s.cfg.maxBytes := streamCell_lt (Nat.lt_of_lt_of_le hk hr)
  omega

end Sys2Proof.Machine
end

section
/-! The life-cycle ghost (R32, R203): how each kind of command moves it, and that its boundary stays below `WP`. -/

namespace Sys2Proof.Machine

/-! ### The ghost's moves -/

@[simp] theorem phaseNext_reset (ghost : Option Ghost) (s t : State) :
    phaseNext ghost .reset s t = some Ghost.start := if_pos rfl

theorem phaseNext_outside {i : Instr} (hi : i ≠ .reset) (s t : State) : phaseNext none i s t = none := if_neg hi

theorem phaseNext_of_failed {i : Instr} (hi : i ≠ .reset) (g : Ghost) {s t : State} (h : Answered false t) :
    phaseNext (some g) i s t = some g := (if_neg hi).trans (if_pos h)

theorem phaseNext_of_ok {i : Instr} (hi : i ≠ .reset) (g : Ghost) {s t : State} {r : Response}
    (ht : t.response = some r) (hr : r.ok = true) : phaseNext (some g) i s t = g.success i s t := by
  refine (if_neg hi).trans (if_neg fun h => ?_)
  rw [ht] at h
  cases h
  cases hr

/-- The three queries leave the ghost (R203). -/
theorem phaseNext_query {i : Instr} (hi : i = .getData ∨ i = .checkpoint ∨ ∃ bits, i = .hasCap bits) (g : Ghost)
    (s t : State) : phaseNext (some g) i s t = some g := by
  rcases hi with rfl | rfl | ⟨bits, rfl⟩ <;> exact (if_neg (by simp)).trans (ite_self _)

theorem Ghost.header_eq (g : Ghost) (p : Nat) :
    g.header p = if g.phase = .empty then some ⟨.framed, p⟩ else none := by
  obtain ⟨phase, floor⟩ := g
  cases phase <;> rfl

theorem Ghost.footer_eq (g : Ghost) (p : Nat) :
    g.footer p = if g.phase = .framed ∨ g.phase = .building then some ⟨.finalized, p⟩ else none := by
  obtain ⟨phase, floor⟩ := g
  cases phase <;> rfl

theorem Ghost.payload_eq (g : Ghost) (p n : Nat) :
    g.payload p (p + n) = if n = 0 then some g
      else if g.phase = .framed ∨ g.phase = .building then some ⟨.building, g.floor⟩ else none := by
  unfold Ghost.payload
  by_cases hn : n = 0
  · rw [if_neg (by omega), if_pos hn]
  · rw [if_pos (by omega), if_neg hn]
    obtain ⟨phase, floor⟩ := g
    cases phase <;> rfl

/-- Every packer command but header and footer is a payload command (R203). -/
theorem Ghost.success_payload {i : Instr} (hi : isPacker i = true) (hh : ∀ d, i ≠ .header d) (hf : i ≠ .footer)
    (g : Ghost) (s t : State) : g.success i s t = g.payload s.wp t.wp := by
  cases i with
  | header d => exact absurd rfl (hh d)
  | footer => exact absurd rfl hf
  | reset => cases hi
  | hasCap => cases hi
  | write => cases hi
  | checkpoint => cases hi
  | restore => cases hi
  | getData => cases hi
  | devCtrl => rfl
  | beginDc => rfl
  | endDc => rfl
  | skip => rfl
  | setSeq => rfl
  | setRpt => rfl
  | progEvt => rfl
  | fwChunk => rfl

/-! ### The answers that move the ghost -/

theorem exec_reset_ok {s t : State} (h : exec .reset s = .next t) : t.response = some Response.success := by
  cases h; rfl

theorem exec_write_ok {value width : Word} {s t : State} (h : exec (.write value width) s = .next t) :
    t.response = some Response.success := by
  simp only [exec, execWrite] at h
  split_ifs at h
  cases h; rfl

theorem exec_restore_next {sp : Word} {s t : State} (h : exec (.restore sp) s = .next t) :
    t.wp = sp.toNat ∧ t.response = some Response.success := by
  simp only [exec, execRestore] at h
  split_ifs at h
  cases h; exact ⟨rfl, rfl⟩

/-- A packer command that succeeds raises `WP` by its cost. -/
theorem layoutNext_wp {i : Instr} {s t : State} (h : LayoutNext i s t) (hok : Answered true t) :
    t.wp = s.wp + bitCost s.cfg i := by
  rcases h with ⟨-, rfl⟩ | ⟨-, fs, -, rfl⟩
  · exact State.appendAll_wp s _
  · cases hok

/-! ### The statements -/

/-- Settles O57, one clause after the other: a failure leaves the ghost, a success moves it by the kind of command,
and a packer command's success raises `WP` exactly when it costs something. -/
theorem lifeCyclePhases : Obligations.LifeCyclePhases := by
  intro i g s t hl _ he
  refine ⟨?_, fun hi => phaseNext_outside hi s t, ?_, ?_, ?_, ?_, ?_, ?_⟩
  · rintro rfl ghost
    exact phaseNext_reset ghost s t
  · rintro (hfail | hq)
    · refine phaseNext_of_failed ?_ g hfail
      rintro rfl
      cases (exec_reset_ok he).symm.trans hfail
    · exact phaseNext_query hq g s t
  · rintro hok ⟨d, rfl⟩
    rw [phaseNext_of_ok (by simp) g hok rfl]
    exact g.header_eq t.wp
  · rintro hok rfl
    rw [phaseNext_of_ok (by simp) g hok rfl]
    exact g.footer_eq t.wp
  · intro hok hi hh hf
    have hreset : i ≠ .reset := by rintro rfl; cases hi
    rw [phaseNext_of_ok hreset g hok rfl, Ghost.success_payload hi hh hf,
      layoutNext_wp (layoutNext_of_exec hl hi he) hok, Ghost.payload_eq]
  · rintro ⟨value, width, rfl⟩
    exact phaseNext_of_ok (by simp) g (exec_write_ok he) rfl
  · rintro sp rfl
    obtain ⟨hwp, hresp⟩ := exec_restore_next he
    rw [phaseNext_of_ok (by simp) g hresp rfl, ← hwp]
    rfl

/-- A packer command that moves the ghost keeps its boundary, or puts it at the new `WP`. -/
theorem Ghost.floor_of_success {i : Instr} (hi : isPacker i = true) {g g' : Ghost} {s t : State}
    (h : g.success i s t = some g') : g'.floor = g.floor ∨ g'.floor = t.wp := by
  by_cases hh : ∃ d, i = .header d
  · obtain ⟨d, rfl⟩ := hh
    rw [Ghost.success, Ghost.header_eq] at h
    split_ifs at h
    cases h; exact .inr rfl
  by_cases hf : i = .footer
  · subst hf
    rw [Ghost.success, Ghost.footer_eq] at h
    split_ifs at h
    cases h; exact .inr rfl
  rw [Ghost.success_payload hi (fun d hd => hh ⟨d, hd⟩) hf, Ghost.payload] at h
  obtain ⟨phase, floor⟩ := g
  split_ifs at h
  · cases phase <;> cases h <;> exact .inl rfl
  · cases h; exact .inl rfl

/-- A restore that stays inside the protocol keeps the ghost and ends at or above its boundary. -/
theorem Ghost.floor_of_restore {g g' : Ghost} {q : Nat} (h : g.restore q = some g') : g'.floor ≤ q := by
  unfold Ghost.restore at h
  split_ifs at h with hq
  cases h
  omega

/-- Settles O59: a restore is held to the boundary by its own test; every other command keeps the boundary or puts
it at the new `WP`, and lowers `WP` in no case but RESET, where the boundary is 0. -/
theorem phaseBoundaryStaysValid : Obligations.PhaseBoundaryStaysValid := by
  intro i g g' s t he hfloor hg
  rcases exec_next he with ⟨rfl, -⟩ | ⟨sp, rfl, -⟩ | ⟨hq, r, -, rfl⟩ | ⟨v, w, rfl, -⟩ | ⟨hi, hp⟩
  · cases hg; exact Nat.zero_le _
  · rw [phaseNext_of_ok (by simp) g (exec_restore_next he).2 rfl] at hg
    exact Ghost.floor_of_restore hg
  · cases (phaseNext_query hq g _ _).symm.trans hg
    exact hfloor
  · cases (phaseNext_of_ok (by simp) g (exec_write_ok he) rfl).symm.trans hg
  · have hwp := packerNext_le_wp hp
    have hreset : i ≠ .reset := by rintro rfl; cases hi
    obtain ⟨ok, hok⟩ := packerNext_response hp
    cases ok with
    | false =>
      cases (phaseNext_of_failed hreset g hok).symm.trans hg
      exact hfloor.trans hwp
    | true =>
      rw [phaseNext_of_ok hreset g hok rfl] at hg
      rcases Ghost.floor_of_success hi hg with h | h <;> omega

end Sys2Proof.Machine
end

section
/-! The queries (R45, R46, R49, R101, R104, R106): they change nothing but the response and do not read the last
one; and the bytes of the Message that BB.GETDATA answers. -/

namespace Sys2Proof.Machine

/-! ### What a query does -/

/-- BB.GETDATA answers within the capacity alone, and then the Message (R50, R106). -/
theorem exec_getData_next {s t : State} (h : exec .getData s = .next t) :
    s.wp ≤ s.cfg.capBits ∧ t = s.answer ⟨true, val32 s.len, s.message⟩ := by
  simp only [exec, execGetData] at h
  split_ifs at h with hcap
  exact ⟨Nat.le_of_not_lt hcap, (Host.Outcome.next.inj h).symm⟩

theorem exec_query_next {i : Instr} (hi : i = .getData ∨ i = .checkpoint ∨ ∃ bits, i = .hasCap bits)
    {s t : State} (h : exec i s = .next t) : ∃ r, t = s.answer r := by
  rcases hi with rfl | rfl | ⟨bits, rfl⟩
  · exact ⟨_, (exec_getData_next h).2⟩
  · exact ⟨_, (Host.Outcome.next.inj h).symm⟩
  · exact ⟨_, (Host.Outcome.next.inj h).symm⟩

/-- A query reads `WP`, the storage and the constants, never the last response (R26), and replaces that. -/
theorem exec_query_answer {i : Instr} (hi : i = .getData ∨ i = .checkpoint ∨ ∃ bits, i = .hasCap bits)
    (s : State) (r : Response) : exec i (s.answer r) = exec i s := by
  rcases hi with rfl | rfl | ⟨bits, rfl⟩
  · rfl
  · rfl
  · rfl

/-! ### The bytes of the Message -/

@[simp] theorem State.length_message (s : State) : s.message.length = s.len := by simp [State.message]

theorem State.msb_of_mem_message {s : State} {b : Byte} (h : b ∈ s.message) : b.msb = false := by
  obtain ⟨i, -, rfl⟩ := List.mem_map.1 h
  exact s.msb_out i

theorem State.len_eq_zero_iff (s : State) : s.len = 0 ↔ s.wp = 0 := by
  unfold State.len Config.cellBits
  omega

theorem State.message_eq_nil_iff (s : State) : s.message = [] ↔ s.wp = 0 := by
  rw [← List.length_eq_zero_iff, s.length_message, s.len_eq_zero_iff]

/-! ### The statements -/

/-- Settles O25: the answer is the Message, made of `LEN` output bytes, with `WP` within the capacity. -/
theorem messageBytesAreSevenBit : Obligations.MessageBytesAreSevenBit := by
  intro s t r hl he hr
  obtain ⟨hcap, rfl⟩ := exec_getData_next he
  cases hr
  refine ⟨fun b hb => State.msb_of_mem_message hb, ?_, s.message_eq_nil_iff⟩
  exact s.length_message.trans_le (State.len_le_maxBytes hl hcap)

/-- Settles O26: a query replaces the response alone, which the same query asked again does not read. -/
theorem queriesIdempotent : Obligations.QueriesIdempotent := by
  intro i s t hi he
  obtain ⟨r, rfl⟩ := exec_query_next hi he
  exact ⟨(exec_query_answer hi s r).trans he, rfl, rfl, KeepsHost.refl s⟩

end Sys2Proof.Machine
end

section
/-! The opcode table (R60 to R63): one equation per row of the decoder and one for the reserved codes, what the
step does with a command record that has no instruction, and the statements about the encoding. -/

namespace Sys2Proof

/-! ### The rows of the opcode table -/

section Rows

variable {c : Command}

theorem decode_reset (h : c.op.toNat = 0x00) : decode c = .ok .reset := by simp only [decode, h]

theorem decode_hasCap (h : c.op.toNat = 0x01) : decode c = .ok (.hasCap c.a) := by simp only [decode, h]

theorem decode_write (h : c.op.toNat = 0x02) : decode c = .ok (.write c.a c.b) := by simp only [decode, h]

theorem decode_checkpoint (h : c.op.toNat = 0x03) : decode c = .ok .checkpoint := by simp only [decode, h]

theorem decode_restore (h : c.op.toNat = 0x04) : decode c = .ok (.restore c.a) := by simp only [decode, h]

theorem decode_getData (h : c.op.toNat = 0x05) : decode c = .ok .getData := by simp only [decode, h]

theorem decode_header (h : c.op.toNat = 0x08) : decode c = .ok (.header c.a) := by simp only [decode, h]

theorem decode_footer (h : c.op.toNat = 0x09) : decode c = .ok .footer := by simp only [decode, h]

theorem decode_devCtrl (h : c.op.toNat = 0x0A) : decode c = .ok (.devCtrl c.a) := by simp only [decode, h]

theorem decode_beginDc (h : c.op.toNat = 0x0B) : decode c = .ok (.beginDc c.a) := by simp only [decode, h]

theorem decode_endDc (h : c.op.toNat = 0x0C) : decode c = .ok (.endDc c.a) := by simp only [decode, h]

theorem decode_skip (h : c.op.toNat = 0x0D) : decode c = .ok (.skip c.a) := by simp only [decode, h]

theorem decode_setSeq (h : c.op.toNat = 0x0E) : decode c = .ok (.setSeq c.a c.payload) := by
  simp only [decode, h]

theorem decode_setRpt (h : c.op.toNat = 0x0F) : decode c = .ok (.setRpt c.a c.b c.c) := by
  simp only [decode, h]

theorem decode_progEvt (h : c.op.toNat = 0x10) : decode c = .ok (.progEvt c.payload) := by
  simp only [decode, h]

theorem decode_fwChunk (h : c.op.toNat = 0x11) : decode c = .ok (.fwChunk c.a c.payload) := by
  simp only [decode, h]

end Rows

/-- R63: the codes without an instruction are those that no row selects. -/
theorem decode_eq_error_iff (c : Command) :
    decode c = .error .reservedOp ↔ c.op.toNat = 0x06 ∨ c.op.toNat = 0x07 ∨ 0x12 ≤ c.op.toNat := by
  unfold decode
  split
  case h_17 => simp only [imp_false, true_iff] at *; omega
  all_goals simp only [reduceCtorEq, false_iff]; omega

/-! ### The statements about the decoder -/

/-- Settles O1: the encoded record has the instruction's own fields, so its `OP` selects the instruction's row,
which reads the operands back. -/
theorem decodeEncodeRoundTrip : Obligations.DecodeEncodeRoundTrip := by
  intro i
  obtain ⟨hop, ha, hb, hc, hp⟩ := Laws.EncodedFields.ofPack i
  replace hop := congrArg BitVec.toNat hop
  cases i with
  | reset => exact decode_reset hop
  | hasCap => rw [decode_hasCap hop, ha, Instr.operandWords]
  | write => rw [decode_write hop, ha, hb, Instr.operandWords]
  | checkpoint => exact decode_checkpoint hop
  | restore => rw [decode_restore hop, ha, Instr.operandWords]
  | getData => exact decode_getData hop
  | header => rw [decode_header hop, ha, Instr.operandWords]
  | footer => exact decode_footer hop
  | devCtrl => rw [decode_devCtrl hop, ha, Instr.operandWords]
  | beginDc => rw [decode_beginDc hop, ha, Instr.operandWords]
  | endDc => rw [decode_endDc hop, ha, Instr.operandWords]
  | skip => rw [decode_skip hop, ha, Instr.operandWords]
  | setSeq => rw [decode_setSeq hop, ha, hp, Instr.operandWords, Instr.payloadList]
  | setRpt => rw [decode_setRpt hop, ha, hb, hc, Instr.operandWords]
  | progEvt => rw [decode_progEvt hop, hp, Instr.payloadList]
  | fwChunk => rw [decode_fwChunk hop, ha, hp, Instr.operandWords, Instr.payloadList]

/-- Settles O4: both records select the same row, which reads nothing but the fields they agree in. -/
theorem unusedOperandsIgnored : Obligations.UnusedOperandsIgnored := by
  intro c d hop
  have hd {n : Nat} (h : c.op.toNat = n) : d.op.toNat = n := hop ▸ h
  simp only [List.mem_cons, List.not_mem_nil, or_false]
  refine ⟨fun h => ?_, fun h ha => ?_, fun h ha hb => ?_, fun h ha hp => ?_, fun h ha hb hc => ?_, fun h hp => ?_⟩
  · rcases h with h | h | h | h
    · rw [decode_reset h, decode_reset (hd h)]
    · rw [decode_checkpoint h, decode_checkpoint (hd h)]
    · rw [decode_getData h, decode_getData (hd h)]
    · rw [decode_footer h, decode_footer (hd h)]
  · rcases h with h | h | h | h | h | h | h
    · rw [decode_hasCap h, decode_hasCap (hd h), ha]
    · rw [decode_restore h, decode_restore (hd h), ha]
    · rw [decode_header h, decode_header (hd h), ha]
    · rw [decode_devCtrl h, decode_devCtrl (hd h), ha]
    · rw [decode_beginDc h, decode_beginDc (hd h), ha]
    · rw [decode_endDc h, decode_endDc (hd h), ha]
    · rw [decode_skip h, decode_skip (hd h), ha]
  · rw [decode_write h, decode_write (hd h), ha, hb]
  · rcases h with h | h
    · rw [decode_setSeq h, decode_setSeq (hd h), ha, hp]
    · rw [decode_fwChunk h, decode_fwChunk (hd h), ha, hp]
  · rw [decode_setRpt h, decode_setRpt (hd h), ha, hb, hc]
  · rw [decode_progEvt h, decode_progEvt (hd h), hp]

/-- Settles O2: seven fixed words, each decoded. -/
theorem specWordsDecode : Obligations.SpecWordsDecode :=
  ⟨by decide, by decide, by decide, by decide, by decide, by decide, by decide⟩

end Sys2Proof

namespace Sys2Proof.Machine

/-! ### The reserved codes at the port -/

theorem ite_ne_refused {p : Prop} [Decidable p] {x y : Result} {f : Refusal} (hx : x ≠ .refused f)
    (hy : y ≠ .refused f) : (if p then x else y) ≠ .refused f := by
  split
  · exact hx
  · exact hy

theorem finish_ne_refused (r : State × Bool) (f : Refusal) : State.finish r ≠ .refused f := nofun

/-- A command refuses its operands for a reason of its own (R185), never as a reserved code. -/
theorem exec_ne_reservedOp (i : Instr) (s : State) : exec i s ≠ .refused .reservedOp := by
  cases i with
  | reset | hasCap | checkpoint => exact nofun
  | getData | restore => exact ite_ne_refused nofun nofun
  | write => exact ite_ne_refused nofun (ite_ne_refused nofun (ite_ne_refused nofun nofun))
  | footer | endDc => exact finish_ne_refused _ _
  | header | devCtrl | beginDc | progEvt => exact ite_ne_refused nofun (finish_ne_refused _ _)
  | skip => exact ite_ne_refused (finish_ne_refused _ _) (finish_ne_refused _ _)
  | setSeq =>
    exact ite_ne_refused (finish_ne_refused _ _)
      (ite_ne_refused nofun (ite_ne_refused nofun (finish_ne_refused _ _)))
  | setRpt => exact ite_ne_refused (finish_ne_refused _ _) (ite_ne_refused nofun (finish_ne_refused _ _))
  | fwChunk =>
    exact ite_ne_refused nofun
      (ite_ne_refused nofun (ite_ne_refused nofun (finish_ne_refused _ _)))

theorem step_of_fetch_error {s s' : State} {c : Command} {e : DecodeError}
    (hf : s.fetch = some (c, s')) (hd : decode c = .error e) : step s = .refused (decodeRefusal e) := by
  simp only [step, hf, hd]

theorem step_eq_reservedOp_iff {s s' : State} {c : Command} (hf : s.fetch = some (c, s')) :
    step s = .refused .reservedOp ↔ decode c = .error .reservedOp := by
  cases hd : decode c with
  | error e =>
    cases e
    simp only [step_of_fetch_error hf hd, decodeRefusal]
  | ok i => simp only [step_of_fetch_some hf hd, exec_ne_reservedOp, reduceCtorEq]

/-- Settles O3: the step refuses as reserved what has no instruction, and nothing else. -/
theorem reservedOpRefused : Obligations.ReservedOpRefused := by
  intro s c rest hc
  rw [step_eq_reservedOp_iff (State.fetch_of_commands_cons hc), decode_eq_error_iff, ← BitVec.toNat_inj,
    ← BitVec.toNat_inj]
  rfl

end Sys2Proof.Machine
end

section
/-! The Bit Buffer commands (R101 to R107): the exact end of each, the bits that appending leaves alone, and what
stands below a position over a list of commands that give up nothing there. -/

namespace Sys2Proof.Machine

/-! ### The decoder's rows on packed words -/

theorem toNat_op_pack (op : OpCode) (a b c : Word) (p : List Word) :
    (Command.op ⟨Command.pack op a b c, p⟩).toNat = op.toNat := by rw [Command.op_pack]

/-! ### The exact end of each command -/

theorem exec_hasCap (bits : Word) (s : State) : exec (.hasCap bits) s =
    .next (s.answer ⟨true, if s.wp + bits.toNat ≤ s.cfg.capBits then 1 else 0, []⟩) := by
  rw [← valBool_hasCap]; rfl

theorem exec_hasCap_yes_iff (bits : Word) (s : State) :
    exec (.hasCap bits) s = .next (s.answer ⟨true, 1, []⟩) ↔ s.wp + bits.toNat ≤ s.cfg.capBits := by
  rw [exec_hasCap]
  split_ifs with hcap
  · exact iff_of_true rfl hcap
  · exact iff_of_false (by simp [State.answer]) hcap

section Write

variable {value width : Word} {s : State}

theorem exec_write_badWidth (h : ¬(1 ≤ width.toNat ∧ width.toNat ≤ s.cfg.maxWidth)) :
    exec (.write value width) s = .refused .badWidth := if_pos h

theorem exec_write_valueTooWide (hw : 1 ≤ width.toNat ∧ width.toNat ≤ s.cfg.maxWidth)
    (hv : 2 ^ width.toNat ≤ value.toNat) : exec (.write value width) s = .refused .valueTooWide := by
  simp only [exec, execWrite]
  rw [if_neg (not_not_intro hw), if_pos (by simpa using hv)]

theorem exec_write_full (hw : 1 ≤ width.toNat ∧ width.toNat ≤ s.cfg.maxWidth) (hv : value.toNat < 2 ^ width.toNat)
    (hcap : s.cfg.capBits < s.wp + width.toNat) :
    exec (.write value width) s = .refused .writeWithoutCapacity := by
  simp only [exec, execWrite]
  rw [if_neg (not_not_intro hw), if_neg (by simpa using hv), if_pos (by simpa using hcap)]

theorem exec_write_fits (hw : 1 ≤ width.toNat ∧ width.toNat ≤ s.cfg.maxWidth) (hv : value.toNat < 2 ^ width.toNat)
    (hcap : s.wp + width.toNat ≤ s.cfg.capBits) :
    exec (.write value width) s =
      .next ((s.append ⟨value.toNat, width.toNat⟩).answer Response.success) := by
  simp only [exec, execWrite]
  rw [if_neg (not_not_intro hw), if_neg (by simpa using hv), if_neg (by simpa using hcap)]

theorem exec_write_next {t : State} (h : exec (.write value width) s = .next t) :
    s.wp + width.toNat ≤ s.cfg.capBits ∧
      t = (s.append ⟨value.toNat, width.toNat⟩).answer Response.success := by
  simp only [exec, execWrite] at h
  split_ifs at h with hw hv hcap
  exact ⟨(s.hasCap_iff _).1 hcap, (Host.Outcome.next.inj h).symm⟩

end Write

theorem exec_checkpoint {s : State} : exec .checkpoint s = .next (s.answer ⟨true, val32 s.wp, []⟩) := rfl

theorem exec_restore_of_le {sp : Word} {s : State} (h : sp.toNat ≤ s.wp) :
    exec (.restore sp) s = .next ((s.setWp sp.toNat).answer Response.success) := if_neg (not_not_intro h)

theorem exec_restore_of_lt {sp : Word} {s : State} (h : s.wp < sp.toNat) :
    exec (.restore sp) s = .refused .restoreForward := if_pos (Nat.not_le_of_lt h)

theorem exec_getData_of_le {s : State} (h : s.wp ≤ s.cfg.capBits) :
    exec .getData s = .next (s.answer ⟨true, val32 s.len, s.message⟩) := if_neg (Nat.not_lt_of_le h)

/-! ### The bits of the storage after appending -/

theorem State.bit_append {s : State} {f : Field} {j : Nat} (hj : j < f.width) :
    (s.append f).mem.bit (s.wp + j) = f.value.testBit j := by
  rw [State.append_mem, Memory.bit_writeField, if_pos (by omega), Nat.add_sub_cancel_left]

theorem State.bit_appendAll_of_lt {s : State} (fs : List Field) {k : Nat} (hk : k < s.wp) :
    (s.appendAll fs).mem.bit k = s.mem.bit k := by
  obtain ⟨-, -, ⟨hbit, -⟩, -⟩ := Wrote.appendAll s fs
  exact hbit k (by omega)

/-- Every command but RESET writes at or above `WP` alone, also where it then rolls back (R103, R105, R121). -/
theorem exec_bit_of_lt {i : Instr} {s t : State} (he : exec i s = .next t) (hi : i ≠ .reset) {k : Nat}
    (hk : k < s.wp) : t.mem.bit k = s.mem.bit k := by
  rcases exec_next he with ⟨hreset, -⟩ | ⟨sp, -, -, rfl⟩ | ⟨-, r, -, rfl⟩ | ⟨v, w, -, -, -, rfl⟩ |
    ⟨-, ⟨fs, -, rfl⟩ | ⟨fs, -, rfl⟩⟩
  · exact absurd hreset hi
  · rfl
  · rfl
  · exact State.bit_appendAll_of_lt [⟨operandU v, operandU w⟩] hk
  · exact State.bit_appendAll_of_lt fs hk
  · exact State.bit_appendAll_of_lt fs hk

/-- A command that gives up nothing below `p` leaves `WP` at or above `p` (R22, R105). -/
theorem le_wp_of_keepsBelow {i : Instr} {p : Nat} {s t : State} (he : exec i s = .next t) (hi : KeepsBelow p i)
    (hp : p ≤ s.wp) : p ≤ t.wp := by
  obtain ⟨hreset, hrestore⟩ := hi
  by_cases hr : ∃ sp, i = .restore sp
  · obtain ⟨sp, rfl⟩ := hr
    rw [(exec_restore_next he).1]
    exact hrestore sp rfl
  · exact hp.trans (writePositionNeverShrinks i s t he hreset fun sp hsp => hr ⟨sp, hsp⟩)

/-! ### The bytes of the Message, bit by bit -/

/-- R45 at every bit index, those above a byte's width included. -/
theorem State.getLsbD_out_eq_outBit (s : State) (i j : Nat) : (s.out i).getLsbD j = s.outBit i j := by
  by_cases hj : j < 8
  · exact s.getLsbD_out hj
  · rw [BitVec.getLsbD_of_ge _ _ (by omega), State.outBit, decide_eq_false (by unfold Config.cellBits; omega)]
    rfl

theorem State.streamCell_lt_len {s : State} {k : Nat} (hk : k < s.wp) : streamCell k < s.len := by
  unfold streamCell State.len Config.cellBits
  omega

theorem State.outBit_of_lt {s : State} {k : Nat} (hk : k < s.wp) :
    s.outBit (streamCell k) (streamPos k) = s.mem.bit k := by
  simp [State.outBit, streamIndex_cell_pos, hk, streamPos_lt k]

/-- Each valid bit stands in the Message where the bit order of R42 puts it. -/
theorem State.message_bit {s : State} {k : Nat} (hk : k < s.wp) :
    (s.message[streamCell k]?).map (fun b => b.getLsbD (streamPos k)) = some (s.mem.bit k) := by
  simp [State.message, State.streamCell_lt_len hk, State.getLsbD_out_eq_outBit, State.outBit_of_lt hk]

theorem State.len_le_wp (s : State) : s.len ≤ s.wp := by
  unfold State.len Config.cellBits
  omega

/-! ### Runs -/

/-- What every command of a list keeps, the whole list keeps. -/
theorem runAll_induction {P : State → Prop} {is : List Instr}
    (hstep : ∀ i ∈ is, ∀ s t, P s → exec i s = .next t → P t) {s t : State} (hs : P s)
    (h : runAll is s = .next t) : P t := by
  induction is generalizing s with
  | nil => cases h; exact hs
  | cons i is ih =>
    unfold runAll at h
    split at h
    next u he =>
      exact ih (fun j hj => hstep j (List.mem_cons_of_mem i hj)) (hstep i List.mem_cons_self s u hs he) h
    next => cases h
    next => cases h

/-- In `t` everything that stood below position `p` in `s` still stands: the constants, a `WP` at or above `p`, and
every bit below it. -/
def StandsBelow (p : Nat) (s t : State) : Prop :=
  t.cfg = s.cfg ∧ p ≤ t.wp ∧ ∀ k, k < p → t.mem.bit k = s.mem.bit k

/-! ### The statements -/

/-- Settles O14: a command writes at or above `WP`, so every valid bit stays, whether it stays valid or not. -/
theorem validBitsStay : Obligations.ValidBitsStay :=
  fun _ _ _ he hi _ hk _ => exec_bit_of_lt he hi hk

/-- Settles O58: `WP` is lowered by a restore alone, and no command writes below it. -/
theorem bitsBelowPositionStay : Obligations.BitsBelowPositionStay :=
  fun _ _ _ _ he hi hp => ⟨le_wp_of_keepsBelow he hi hp, fun _ hk => exec_bit_of_lt he hi.1 (hk.trans_le hp)⟩

/-- R107(b) and (e) over a whole list: O58 for each command. -/
theorem runAll_standsBelow {p : Nat} {is : List Instr} {s t : State} (hp : p ≤ s.wp)
    (his : ∀ i ∈ is, KeepsBelow p i) (h : runAll is s = .next t) : StandsBelow p s t := by
  refine runAll_induction (fun i hi u v hu he => ?_) ⟨rfl, hp, fun _ _ => rfl⟩ h
  obtain ⟨hcfg, hwp, hbits⟩ := hu
  obtain ⟨hwp', hbits'⟩ := bitsBelowPositionStay i p u v he (his i hi) hwp
  exact ⟨(exec_cfg_commands he).1.trans hcfg, hwp', fun k hk => (hbits' k hk).trans (hbits k hk)⟩

/-- Settles O20: the answer is the capacity test. -/
theorem hasCapAnswersCapacity : Obligations.HasCapAnswersCapacity :=
  ⟨fun _ _ _ _ => by rw [decode_hasCap (toNat_op_pack _ _ _ _ _), Command.a_pack], exec_hasCap⟩

/-- Settles O21: the tests one after the other, and the one field that an accepted write appends. -/
theorem writeAppendsField : Obligations.WriteAppendsField := by
  refine ⟨fun _ _ _ _ => by rw [decode_write (toNat_op_pack _ _ _ _ _), Command.a_pack, Command.b_pack], ?_⟩
  intro value width s hl
  have h32 := (Cfg.legal_fixed hl).2.1
  refine ⟨fun hw => exec_write_badWidth (by omega), fun hw hw' hv => exec_write_valueTooWide (by omega) hv,
    fun hw hw' hv hcap => exec_write_full (by omega) hv hcap, fun hw hw' hv hcap => ?_⟩
  obtain ⟨-, -, houtside, hhost⟩ :=
    (Wrote.append s ⟨value.toNat, width.toNat⟩).answer Response.success
  exact ⟨_, exec_write_fits (by omega) hv hcap, rfl, fun j hj => State.bit_append hj, houtside, hhost, rfl⟩

/-- Settles O22: the position fits 32 bits, as the capacity of a legal configuration does. -/
theorem checkpointReadsPosition : Obligations.CheckpointReadsPosition :=
  ⟨fun _ _ _ _ => decode_checkpoint (toNat_op_pack _ _ _ _ _), fun s hl hwp =>
    ⟨val32 s.wp, val32_toNat (hwp.trans_lt (Cfg.legal_capBits_lt hl)), exec_checkpoint⟩⟩

/-- Settles O23: the one test of BB.RESTORE, passed and failed. -/
theorem restoreRewindsPosition : Obligations.RestoreRewindsPosition :=
  ⟨fun _ _ _ _ => by rw [decode_restore (toNat_op_pack _ _ _ _ _), Command.a_pack],
    fun _ _ => ⟨exec_restore_of_le, exec_restore_of_lt⟩⟩

/-- Settles O24: the answer is the Message, whose length is at most `WP` and so fits 32 bits. -/
theorem getDataReadsMessage : Obligations.GetDataReadsMessage := by
  refine ⟨fun _ _ _ _ => decode_getData (toNat_op_pack _ _ _ _ _), fun s hl hwp => ?_⟩
  have hlen : s.len < 2 ^ 32 := s.len_le_wp.trans_lt (hwp.trans_lt (Cfg.legal_capBits_lt hl))
  refine ⟨val32 s.len, s.message, exec_getData_of_le hwp, val32_toNat hlen, s.length_message, fun i h j => ?_⟩
  have hi : s.message[i] = s.out i := by simp [State.message]
  rw [hi]
  exact s.getLsbD_out_eq_outBit i j

/-- Settles O27: both sides are the capacity test. -/
theorem hasCapDecidesWrite : Obligations.HasCapDecidesWrite := by
  intro value width s hl hw hw' hv
  have h32 := (Cfg.legal_fixed hl).2.1
  rw [exec_hasCap_yes_iff]
  exact ⟨fun hcap => ⟨_, exec_write_fits (by omega) hv hcap⟩, fun ⟨_, he⟩ => (exec_write_next he).1⟩

/-- Settles O28: the Saved Position is `WP`, below which the commands between keep everything. -/
theorem checkpointRestoreRollsBack : Obligations.CheckpointRestoreRollsBack := by
  intro is s s' t r hl hwp hc hr his hrun
  cases exec_checkpoint.symm.trans hc
  cases hr
  have hval : (val32 s.wp).toNat = s.wp := val32_toNat (hwp.trans_lt (Cfg.legal_capBits_lt hl))
  obtain ⟨hcfg, hle, hbits⟩ := runAll_standsBelow (s := s.answer _) (Nat.le_refl s.wp) his hrun
  exact ⟨_, exec_restore_of_le (hval.trans_le hle), hcfg.symm, hval.symm, fun k hk => (hbits k hk).symm⟩

/-- Settles O29: the field's bits stand below its end in every later state, and the Message shows each valid bit. -/
theorem writtenFieldReadsBack : Obligations.WrittenFieldReadsBack := by
  intro value width is s t u u' r hw his hrun hg hr j hj
  obtain ⟨-, rfl⟩ := exec_write_next hw
  obtain ⟨-, rfl⟩ := exec_getData_next hg
  cases hr
  obtain ⟨-, hle, hbits⟩ := runAll_standsBelow (p := s.wp + width.toNat) (Nat.le_refl _) his hrun
  have hlt : s.wp + j < s.wp + width.toNat := Nat.add_lt_add_left hj _
  have hbit : u.mem.bit (s.wp + j) = value.getLsbD j :=
    (hbits _ hlt).trans (State.bit_append (f := ⟨value.toNat, width.toNat⟩) hj)
  exact (State.message_bit (hlt.trans_le hle)).trans (congrArg some hbit)

end Sys2Proof.Machine
end

section
/-! How every packer command ends (R120, R121, R180, R185): refused for the contract it violates, else with its whole
layout written when that fits, else rolled back to where it stood. -/

namespace Sys2Proof.Machine

/-! ### Refused or finished -/

/-- The test over a byte payload, element by element (R47, R70, log 15). -/
theorem pay8_not_all_fitsPay8_iff (payload : List Word) (n w : Nat) :
    ¬(pay8 payload n).all (fitsPay8 w) = true ↔
      ∃ i < n, 2 ^ Config.wPay8 ≤ memRead payload i ∨ 2 ^ w ≤ memRead payload i := by
  simp only [pay8, List.all_map, List.all_eq_true, List.mem_range, Function.comp_apply, fitsPay8_iff, not_forall,
    not_and_or, not_lt, exists_prop]

/-- A value is too wide for its field when it reaches the power of two (R9, R70). -/
theorem not_fits_iff (v w : Nat) : ¬fits v w = true ↔ 2 ^ w ≤ v := by rw [fits_iff, not_lt]

/-- One test of a meaning against the row of the refusal table that stands for it. -/
theorem ite_refused_eq_elim {p q : Prop} [Decidable p] [Decidable q] {r : Refusal} {v : Option Refusal}
    {x e : Result} (hpq : p ↔ q) (hx : x = v.elim e .refused) :
    (if p then .refused r else x) = (if q then some r else v).elim e .refused := by
  by_cases hp : p
  · rw [if_pos hp, if_pos (hpq.1 hp)]; rfl
  · rw [if_neg hp, if_neg (hpq.not.1 hp), hx]

/-- A `PK.` command is refused for the contract it violates, and ends with `ok` 0 or 1 when it violates none. -/
theorem exec_packer {i : Instr} (hi : isPacker i = true) (s : State) :
    ∃ e, exec i s = (violation s i).elim (State.finish e) .refused := by
  cases i with
  | reset => cases hi
  | hasCap => cases hi
  | write => cases hi
  | checkpoint => cases hi
  | restore => cases hi
  | getData => cases hi
  | header d => exact ⟨_, ite_refused_eq_elim Nat.not_lt rfl⟩
  | footer => exact ⟨_, rfl⟩
  | devCtrl c => exact ⟨_, ite_refused_eq_elim (not_fits_iff _ _) rfl⟩
  | beginDc p => exact ⟨_, ite_refused_eq_elim (not_fits_iff _ _) rfl⟩
  | endDc l => exact ⟨_, rfl⟩
  | skip n => exact ⟨_, (apply_ite State.finish _ _ _).symm⟩
  | setSeq num payload =>
    by_cases hn : operandS num ≤ 0
    · exact ⟨_, by simp only [exec, execSetSeq, violation, if_pos hn]; rfl⟩
    · simp only [exec, execSetSeq, violation, if_neg hn]
      exact ⟨_, ite_refused_eq_elim Iff.rfl (ite_refused_eq_elim (pay8_not_all_fitsPay8_iff _ _ _) rfl)⟩
  | setRpt v l num =>
    by_cases hn : operandS num ≤ 0
    · exact ⟨_, by simp only [exec, execSetRpt, violation, if_pos hn]; rfl⟩
    · simp only [exec, execSetRpt, violation, if_neg hn]
      exact ⟨_, ite_refused_eq_elim (by simp only [Bool.and_eq_true, not_and_or, not_fits_iff]) rfl⟩
  | progEvt payload => exact ⟨_, ite_refused_eq_elim Iff.rfl rfl⟩
  | fwChunk size payload =>
    exact ⟨_, ite_refused_eq_elim (not_fits_iff _ _) (ite_refused_eq_elim Iff.rfl
      (ite_refused_eq_elim (pay8_not_all_fitsPay8_iff _ _ _) rfl))⟩

theorem exec_next_of_no_violation {i : Instr} {s : State} (hi : isPacker i = true) (hv : violation s i = none) :
    ∃ t, exec i s = .next t := by
  obtain ⟨e, he⟩ := exec_packer hi s
  rw [hv] at he
  exact ⟨_, he⟩

/-! ### Written or rolled back -/

theorem reach_le_room {i : Instr} {s : State} (h : s.cfg.capBits < s.wp + bitCost s.cfg i) :
    reach s i ≤ s.cfg.capBits - s.wp := by
  rw [reach_full h]
  exact (Nat.mul_le_mul_left _ (Nat.min_le_right _ _)).trans (Nat.mul_div_le _ _)

theorem layoutNext_fits {i : Instr} {s t : State} (h : LayoutNext i s t)
    (hf : s.wp + bitCost s.cfg i ≤ s.cfg.capBits) :
    t = (s.appendAll (layout s.cfg i)).answer ⟨true, 0, []⟩ := by
  rcases h with ⟨-, ht⟩ | ⟨hfull, -⟩
  · exact ht
  · omega

/-- Only a command of no bits succeeds in an overfull store, so one of the two premises `h0` is needed. -/
theorem layoutNext_full {i : Instr} {s t : State} (h : LayoutNext i s t)
    (h0 : s.wp ≤ s.cfg.capBits ∨ 0 < bitCost s.cfg i) (hfull : s.cfg.capBits < s.wp + bitCost s.cfg i) :
    ∃ fs, t = rolledBack s fs := by
  rcases h with ⟨hr, -⟩ | ⟨-, fs, -, ht⟩
  · have := reach_le_room hfull
    omega
  · exact ⟨fs, ht⟩

/-- A packer command succeeds exactly when its cost fits (R120). -/
theorem answered_true_iff_fits {i : Instr} {s t : State} (h : LayoutNext i s t)
    (h0 : s.wp ≤ s.cfg.capBits ∨ 0 < bitCost s.cfg i) :
    Answered true t ↔ s.wp + bitCost s.cfg i ≤ s.cfg.capBits := by
  by_cases hf : s.wp + bitCost s.cfg i ≤ s.cfg.capBits
  · rw [layoutNext_fits h hf]
    exact iff_of_true rfl hf
  · obtain ⟨fs, rfl⟩ := layoutNext_full h h0 (by omega)
    exact iff_of_false nofun hf

/-! ### The statement -/

/-- Settles O30: with no contract violated the command ends, and its layout is written or rolled back. -/
theorem packerAllOrNothing : Obligations.PackerAllOrNothing := by
  intro i s hl hwp hi hv
  obtain ⟨t, he⟩ := exec_next_of_no_violation hi hv
  have ht := layoutNext_of_exec hl hi he
  refine ⟨fun hf => ⟨t, he, ?_⟩, fun hfull => ⟨t, he, ?_⟩⟩
  · rw [layoutNext_fits ht hf]
    exact ⟨(Wrote.appendAll s _).answer _, rfl⟩
  · obtain ⟨fs, rfl⟩ := layoutNext_full ht (.inl hwp) hfull
    exact ⟨rolledBack_obsEq s fs, (rolledBack_obsEq s fs).message.symm, rolledBack_keepsHost s fs, rfl⟩

end Sys2Proof.Machine
end

section
/-! The account of `WP` over a run without RESET and BB.RESTORE (R120, R121): one command, then a list of them. -/

namespace Sys2Proof.Machine

/-! ### One command -/

theorem bitCost_query {i : Instr} (hi : i = .getData ∨ i = .checkpoint ∨ ∃ bits, i = .hasCap bits) (cfg : Cfg) :
    bitCost cfg i = 0 := by
  rcases hi with rfl | rfl | ⟨bits, rfl⟩ <;> rfl

/-- A command that is no RESET and no BB.RESTORE raises `WP` by its cost when it answers `ok = 1`, else by nothing,
and never past the capacity. -/
theorem exec_wp_account {i : Instr} {s t : State} (hl : s.cfg.legal = true) (hwp : s.wp ≤ s.cfg.capBits)
    (hreset : i ≠ .reset) (hrestore : ∀ sp, i ≠ .restore sp) (he : exec i s = .next t) :
    ∃ r, t.response = some r ∧ t.wp = s.wp + (if r.ok then bitCost s.cfg i else 0) ∧ t.wp ≤ s.cfg.capBits := by
  rcases exec_next he with ⟨hi, -⟩ | ⟨sp, hi, -⟩ | ⟨hq, r, -, rfl⟩ | ⟨v, w, rfl, -, hcap, rfl⟩ | ⟨hi, -⟩
  · exact absurd hi hreset
  · exact absurd hi (hrestore sp)
  · exact ⟨r, rfl, by rw [bitCost_query hq, ite_self]; rfl, hwp⟩
  · exact ⟨_, rfl, rfl, hcap⟩
  · have ht := layoutNext_of_exec hl hi he
    by_cases hf : s.wp + bitCost s.cfg i ≤ s.cfg.capBits
    · rw [layoutNext_fits ht hf]
      have hend : (s.appendAll (layout s.cfg i)).wp = s.wp + bitCost s.cfg i := State.appendAll_wp s _
      exact ⟨_, rfl, hend, hend.trans_le hf⟩
    · obtain ⟨fs, rfl⟩ := layoutNext_full ht (.inl hwp) (by omega)
      exact ⟨_, rfl, rfl, hwp⟩

/-! ### A list of commands -/

theorem runAll_cons_next {i : Instr} {is : List Instr} {s t : State} (h : runAll (i :: is) s = .next t) :
    ∃ u, exec i s = .next u ∧ runAll is u = .next t := by
  unfold runAll at h
  split at h
  next u he => exact ⟨u, he, h⟩
  next => cases h
  next => cases h

theorem responses_cons {i : Instr} {s t : State} {r : Response} (he : exec i s = .next t)
    (hr : t.response = some r) (is : List Instr) : responses (i :: is) s = r :: responses is t := by
  rw [responses, he]
  simp only [hr, Option.toList_some, List.singleton_append]

/-- Settles O35, by induction on the list: the first command's account, then that of the others. -/
theorem runAccounting : Obligations.RunAccounting := by
  intro is
  induction is with
  | nil =>
    intro s t _ hwp _ h
    cases h
    exact ⟨rfl, hwp⟩
  | cons i is ih =>
    intro s t hl hwp his h
    obtain ⟨u, he, hrun⟩ := runAll_cons_next h
    obtain ⟨hreset, hrestore⟩ := his i List.mem_cons_self
    obtain ⟨r, hr, hu, hcap⟩ := exec_wp_account hl hwp hreset hrestore he
    have hcfg := (exec_cfg_commands he).1
    obtain ⟨ht, hcap'⟩ := ih u t (hcfg ▸ hl) (hcfg ▸ hcap) (fun j hj => his j (List.mem_cons_of_mem i hj)) hrun
    rw [hcfg] at ht hcap'
    refine ⟨?_, hcap'⟩
    rw [responses_cons he hr, List.zip_cons_cons, List.map_cons, List.sum_cons, ht, hu, Nat.add_assoc]

end Sys2Proof.Machine
end

section
/-! The framing and control commands (R122 to R126) and the room that closes a block (R206): each is refused by its
one test or makes one emission. -/

namespace Sys2Proof.Machine

/-! ### The emissions -/

theorem header_emitsOrFails {s : State} {d : Word} (h : d.toNat < s.cfg.devIdxLimit) :
    EmitsOrFails (headerFields s.cfg d.toNat) (.header d) s :=
  emitsOrFails_of_finishEmit (if_neg (not_not_intro h))

theorem footer_emitsOrFails (s : State) : EmitsOrFails s.cfg.footerSeq .footer s := emitsOrFails_of_finishEmit rfl

theorem devCtrl_emitsOrFails {s : State} {cmd : Word} (h : cmd.toNat < 2 ^ s.cfg.wDevCmd) :
    EmitsOrFails (devCtrlFields s.cfg cmd.toNat) (.devCtrl cmd) s :=
  emitsOrFails_of_finishEmit (if_neg (not_not_intro ((fits_iff _ _).2 h)))

theorem beginDc_emitsOrFails {s : State} {k : Word} (h : k.toNat < 2 ^ s.cfg.wPktIdx) :
    EmitsOrFails (beginDcFields s.cfg k.toNat) (.beginDc k) s :=
  emitsOrFails_of_finishEmit (if_neg (not_not_intro ((fits_iff _ _).2 h)))

theorem endDc_emitsOrFails (isLast : Word) (s : State) :
    EmitsOrFails (endDcFields s.cfg (operandB isLast)) (.endDc isLast) s := emitsOrFails_of_finishEmit rfl

@[simp] theorem cost_endDcFields (cfg : Cfg) (isLast : Bool) : cost (endDcFields cfg isLast) = cfg.wDcc := rfl

@[simp] theorem cost_devCtrlFields (cfg : Cfg) (cmd : Nat) :
    cost (devCtrlFields cfg cmd) = cfg.wMsgType + cfg.wDevCmd := by simp [devCtrlFields]

theorem operandB_of_ne_zero {x : Word} (h : x ≠ 0) : operandB x = true := decide_eq_true h

/-- A buffer that is exactly full has no room for one more bit (R101, R124). -/
theorem exec_hasCap_one_of_full {s : State} (h : s.wp = s.cfg.capBits) :
    exec (.hasCap 1) s = .next (s.answer ⟨true, 0, []⟩) := by
  rw [exec_hasCap, if_neg (by rw [h]; simp)]

/-! ### The statements -/

/-- Settles O38: the one test against `DEVIDX_LIMIT`, failed and passed. -/
theorem headerWritesDeviceIndex : Obligations.HeaderWritesDeviceIndex :=
  ⟨fun _ _ _ _ => by rw [decode_header (toNat_op_pack _ _ _ _ _), Command.a_pack],
    fun _ _ => ⟨fun h => if_pos (Nat.not_lt_of_le h), header_emitsOrFails⟩⟩

/-- Settles O39: the terminator is one emission without a test. -/
theorem footerWritesTerminator : Obligations.FooterWritesTerminator :=
  ⟨fun _ _ _ _ => decode_footer (toNat_op_pack _ _ _ _ _), footer_emitsOrFails⟩

/-- Settles O40: the fit of the code, failed and passed; at the exact end the emission leaves `WP = CAP_BITS`. -/
theorem devCtrlWritesCommand : Obligations.DevCtrlWritesCommand := by
  refine ⟨fun _ _ _ _ => by rw [decode_devCtrl (toNat_op_pack _ _ _ _ _), Command.a_pack], fun cmd s => ?_⟩
  refine ⟨fun h => if_pos ((not_fits_iff _ _).2 h), devCtrl_emitsOrFails, fun h hend => ?_⟩
  rw [← cost_devCtrlFields s.cfg cmd.toNat] at hend
  obtain ⟨t, he, ⟨hwp, -, -, hcfg, -⟩, hok⟩ := (devCtrl_emitsOrFails h).1 hend.le
  exact ⟨t, he, hok, exec_hasCap_one_of_full (by rw [hwp, hend, hcfg])⟩

/-- Settles O41: the fit of the packet index, failed and passed. -/
theorem beginDcWritesPacketIndex : Obligations.BeginDcWritesPacketIndex :=
  ⟨fun _ _ _ _ => by rw [decode_beginDc (toNat_op_pack _ _ _ _ _), Command.a_pack],
    fun _ _ => ⟨fun h => if_pos ((not_fits_iff _ _).2 h), beginDc_emitsOrFails⟩⟩

/-- Settles O42: the boolean operand selects the tag (D12). -/
theorem endDcWritesTag : Obligations.EndDcWritesTag := by
  refine ⟨fun _ _ _ _ => by rw [decode_endDc (toNat_op_pack _ _ _ _ _), Command.a_pack],
    fun s => ⟨endDc_emitsOrFails 0 s, fun isLast h => ?_⟩⟩
  have hemit := endDc_emitsOrFails isLast s
  rwa [operandB_of_ne_zero h] at hemit

/-- Settles O36: each of the three commands fits in what the ones before it leave of the room. -/
theorem roomForTerminator : Obligations.RoomForTerminator := by
  intro i isLast s hl hi hv hroom
  obtain ⟨t, ht, ⟨htwp, -, -, htcfg, -⟩, htok⟩ :=
    (packerAllOrNothing i s hl (by omega) hi hv).1 (by omega)
  have hcost : cost (layout s.cfg i) = bitCost s.cfg i := rfl
  obtain ⟨u, hu, ⟨huwp, -, -, hucfg, -⟩, huok⟩ :=
    (endDc_emitsOrFails isLast t).1 (by rw [cost_endDcFields, htcfg]; omega)
  rw [cost_endDcFields, htcfg] at huwp
  have hucfg : u.cfg = s.cfg := hucfg.trans htcfg
  obtain ⟨v, hv', -, hvok⟩ := (footer_emitsOrFails u).1 (by rw [hucfg]; omega)
  exact ⟨t, u, v, ht, htok, hu, huok, hv', hvok⟩

end Sys2Proof.Machine
end

section
/-! The closed forms of the two split commands (R142, R145): the count's parts, the cost of a split layout, and that
the command succeeds exactly when that cost fits. -/

namespace Sys2Proof.Machine

/-! ### The parts of a count -/

theorem chunkCount_mul_add_tailCount (countMax n : Nat) :
    chunkCount countMax n * countMax + tailCount countMax n = n := by
  have := Nat.div_mul_le_self (n - 1) countMax
  unfold tailCount chunkCount
  omega

theorem tailCount_pos {n : Nat} (hn : 1 ≤ n) (countMax : Nat) : 1 ≤ tailCount countMax n := by
  have := Nat.div_mul_le_self (n - 1) countMax
  unfold tailCount chunkCount
  omega

theorem tailCount_le {countMax : Nat} (hm : 1 ≤ countMax) (n : Nat) : tailCount countMax n ≤ countMax := by
  have := Nat.lt_div_mul_add (a := n - 1) (b := countMax) hm
  unfold tailCount chunkCount
  omega

/-- The parts of a positive count operand (R142, R145). -/
theorem count_parts {cfg : Cfg} (h : cfg.legal = true) {n : Word} (hn : 1 ≤ n.toInt) :
    1 ≤ tailCount cfg.manyMax n.toNat ∧ tailCount cfg.manyMax n.toNat ≤ cfg.manyMax ∧
      chunkCount cfg.manyMax n.toNat * cfg.manyMax + tailCount cfg.manyMax n.toNat = n.toNat := by
  have hm : 1 ≤ cfg.manyMax := by have := Cfg.legal_counts h; omega
  have hn' : 1 ≤ n.toNat := by have := toInt_eq_toNat hn; omega
  exact ⟨tailCount_pos hn' _, tailCount_le hm _, chunkCount_mul_add_tailCount _ _⟩

/-! ### The costs -/

theorem cost_splitFields (chunk : List Field) (tail : Nat → List Field) (countMax n : Nat) :
    cost (splitFields chunk tail countMax n) =
      chunkCount countMax n * cost chunk + cost (tail (tailCount countMax n)) := by
  rw [splitFields, cost_append, cost_replicate]

theorem cost_skipChunk (cfg : Cfg) : cost (skipChunk cfg) = cfg.wDcc + cfg.wMany := by simp [skipChunk]

theorem cost_skipTail (cfg : Cfg) (n : Nat) :
    cost (skipTail cfg n) = if n ≤ cfg.fewMax then cfg.wDcc + cfg.wFew else cfg.wDcc + cfg.wMany := by
  unfold skipTail
  by_cases h : n ≤ cfg.fewMax
  · rw [if_neg (Nat.not_lt_of_le h), if_pos h]; simp
  · rw [if_pos (Nat.lt_of_not_le h), if_neg h]; simp

theorem cost_rptTail (cfg : Cfg) (value lastValue n : Nat) :
    cost (rptTail cfg value lastValue n) =
      if n = 1 then cfg.wDcc + cfg.wByte + cfg.wCont
      else if cfg.fewMax < n then cfg.wDcc + cfg.wMany + cfg.wByte
      else if value = lastValue then cfg.wDcc + cfg.wFew
      else cfg.wDcc + cfg.wFew + cfg.wByte := by
  unfold rptTail
  split_ifs <;> simp [Nat.add_assoc]

/-- A maximal chunk is in the large tier, for `MANY_MAX > FEW_MAX >= 1` (R7, R144 case 2). -/
theorem cost_rptChunk {cfg : Cfg} (h : cfg.legal = true) (value : Nat) :
    cost (rptChunk cfg value) = cfg.wDcc + cfg.wMany + cfg.wByte := by
  obtain ⟨hfew, hmany, -⟩ := Cfg.legal_counts h
  rw [rptChunk, cost_rptTail, if_neg (by omega), if_pos hmany]

theorem cost_skipTail_pos {cfg : Cfg} (h : cfg.legal = true) (n : Nat) : 0 < cost (skipTail cfg n) := by
  have := wDcc_pos h
  rw [cost_skipTail]
  split_ifs <;> omega

theorem bitCost_skip {n : Word} (hn : 1 ≤ n.toInt) (cfg : Cfg) :
    bitCost cfg (.skip n) = chunkCount cfg.manyMax n.toNat * cost (skipChunk cfg) +
      cost (skipTail cfg (tailCount cfg.manyMax n.toNat)) := by
  rw [bitCost, layout, if_neg (by unfold operandS; omega), count_eq hn, skipFields, cost_splitFields]

theorem bitCost_setRpt {num : Word} (hn : 1 ≤ num.toInt) (v l : Word) (cfg : Cfg) :
    bitCost cfg (.setRpt v l num) = chunkCount cfg.manyMax num.toNat * cost (rptChunk cfg v.toNat) +
      cost (rptTail cfg v.toNat l.toNat (tailCount cfg.manyMax num.toNat)) := by
  rw [bitCost, layout, if_neg (by unfold operandS; omega), count_eq hn, rptFields, cost_splitFields]

/-! ### The statements -/

/-- Settles O44: a skip succeeds exactly when its cost fits, which is the chunks' and the tail's. -/
theorem skipClosedForm : Obligations.SkipClosedForm := by
  rintro n s t k r hl hn rfl rfl he
  obtain ⟨hpos, hle, hsum⟩ := count_parts hl hn
  refine ⟨hpos, hle, hsum, ?_⟩
  have hcost := bitCost_skip hn s.cfg
  have htail := cost_skipTail_pos hl (tailCount s.cfg.manyMax n.toNat)
  have hiff := answered_true_iff_fits (layoutNext_of_exec hl rfl he) (.inr (by omega))
  rwa [hcost, cost_skipChunk, cost_skipTail] at hiff

/-- Settles O49: a repetition succeeds exactly when its cost fits, which is the chunks' and the tail's. -/
theorem setRptClosedForm : Obligations.SetRptClosedForm := by
  rintro v l num s t k r hl hn rfl rfl he
  obtain ⟨hpos, hle, hsum⟩ := count_parts hl hn
  refine ⟨hpos, hle, hsum, ?_⟩
  have hcost := bitCost_setRpt hn v l s.cfg
  have htail := cost_rptTail_pos hl v.toNat l.toNat (tailCount s.cfg.manyMax num.toNat)
  have hiff := answered_true_iff_fits (layoutNext_of_exec hl rfl he) (.inr (by omega))
  rw [hcost, cost_rptChunk hl, cost_rptTail] at hiff
  simp only [BitVec.toNat_inj] at hiff
  exact hiff

end Sys2Proof.Machine
end

section
/-! The skip and set-bytes commands (R140 to R148): the trivial counts, one emission up to `MANY_MAX`, the split with
its rollback above, and what the other operands do to each. -/

namespace Sys2Proof.Machine

/-! ### The trivial counts -/

theorem exec_skip_trivial {n : Word} (h : n.toInt ≤ 0) (s : State) :
    exec (.skip n) s = .next (s.answer ⟨true, 0, []⟩) := if_pos h

theorem exec_setSeq_trivial {num : Word} (h : num.toInt ≤ 0) (payload : List Word) (s : State) :
    exec (.setSeq num payload) s = .next (s.answer ⟨true, 0, []⟩) := if_pos h

theorem exec_setRpt_trivial {num : Word} (h : num.toInt ≤ 0) (v l : Word) (s : State) :
    exec (.setRpt v l num) s = .next (s.answer ⟨true, 0, []⟩) := if_pos h

/-- Settles O34: the count is tested before anything else. -/
theorem trivialCountsSucceed : Obligations.TrivialCountsSucceed :=
  fun _ v l payload s h => ⟨exec_skip_trivial h s, exec_setSeq_trivial h payload s, exec_setRpt_trivial h v l s⟩

theorem not_operandS_le_zero {n : Word} (h : 1 ≤ n.toInt) : ¬operandS n ≤ 0 := Int.not_le.2 h

theorem one_le_toNat {n : Word} (h : 1 ≤ n.toInt) : 1 ≤ n.toNat := by
  have := toInt_eq_toNat h
  omega

theorem toNat_le_of_toInt_le {n : Word} {m : Nat} (h : 1 ≤ n.toInt) (hle : n.toInt ≤ m) : n.toNat ≤ m := by
  rwa [toInt_eq_toNat h, Int.ofNat_le] at hle

/-! ### The split emission, up to and above `MANY_MAX` -/

/-- A count of at most `MANY_MAX` makes one emission (R141, R144). -/
theorem State.emitChunks_of_le {countMax n : Nat} (h : n ≤ countMax) (chunk : List Field) (tail : Nat → List Field)
    (rounds : Nat) (s : State) : s.emitChunks chunk tail countMax rounds n = s.emit (tail n) := by
  cases rounds with
  | zero => rfl
  | succ rounds => exact if_neg (Nat.not_lt_of_le h)

/-- One emission that fails has nothing to roll back. -/
theorem finish_rollback_emit (s : State) (fs : List Field) :
    State.finish (rollback s.wp (s.emit fs)) = s.finishEmit fs := by
  unfold State.finishEmit State.emit
  split <;> rfl

theorem chunkCount_eq_of_parts {countMax n k r : Nat} (hsum : k * countMax + r = n) (hr : 1 ≤ r)
    (hr' : r ≤ countMax) : chunkCount countMax n = k :=
  Nat.div_eq_of_lt_le (by omega) (by rw [Nat.succ_mul]; omega)

theorem tailCount_eq_of_parts {countMax n k r : Nat} (hsum : k * countMax + r = n) (hr : 1 ≤ r)
    (hr' : r ≤ countMax) : tailCount countMax n = r := by
  rw [tailCount, chunkCount_eq_of_parts hsum hr hr']
  omega

/-- A split emission of `k` maximal chunks and a tail of `r` meets the contract of R147. -/
theorem emitsOrRollsBack_of_parts {chunk : List Field} {tail : Nat → List Field} {countMax n k r : Nat} {i : Instr}
    {s : State} (hc : 0 < cost chunk) (hsum : k * countMax + r = n) (hr : 1 ≤ r) (hr' : r ≤ countMax)
    (h : exec i s = State.finish (rollback s.wp (s.emitChunks chunk tail countMax n n))) :
    EmitsOrRollsBack ((List.replicate k chunk).flatten ++ tail r) (cost chunk) k i s := by
  have hsplit := emitsOrRollsBack_of_emitChunks (hr.trans hr') hc (by omega) h
  rwa [splitFields, chunkCount_eq_of_parts hsum hr hr', tailCount_eq_of_parts hsum hr hr'] at hsplit

/-- A split emission reads its tail at the tail count alone. -/
theorem State.emitChunks_congr_tail {chunk : List Field} {tail tail' : Nat → List Field} {countMax n : Nat}
    (hm : 1 ≤ countMax) (hc : 0 < cost chunk) (hn : 1 ≤ n)
    (h : tail (tailCount countMax n) = tail' (tailCount countMax n)) (s : State) :
    s.emitChunks chunk tail countMax n n = s.emitChunks chunk tail' countMax n n := by
  have hsplit : splitFields chunk tail countMax n = splitFields chunk tail' countMax n := by
    rw [splitFields, splitFields, h]
  by_cases hf : s.wp + cost (splitFields chunk tail countMax n) ≤ s.cfg.capBits
  · rw [State.emitChunks_fits hm hn le_rfl hf, State.emitChunks_fits hm hn le_rfl (hsplit ▸ hf), hsplit]
  · have hfull := Nat.lt_of_not_le hf
    rw [State.emitChunks_full hm hc hn le_rfl hfull, State.emitChunks_full hm hc hn le_rfl (hsplit ▸ hfull)]

/-- R147 over every shape of a packer command's next state: after `ok = 0` nothing the host can see has changed. -/
theorem packerNext_failed {s t : State} (h : PackerNext s t) (hf : Answered false t) :
    ObsEq s t ∧ KeepsHost s t := by
  rcases h with ⟨fs, -, rfl⟩ | ⟨fs, -, rfl⟩
  · cases hf
  · exact ⟨rolledBack_obsEq s fs, rolledBack_keepsHost s fs⟩

/-- Settles O52: a failure is a rollback, which restores `WP` and touches no valid bit. -/
theorem multiStepRollback : Obligations.MultiStepRollback := by
  intro n v l bits i s t hi he hf
  have hpacker : isPacker i = true := by rcases hi with rfl | rfl <;> rfl
  obtain ⟨hobs, hhost⟩ := packerNext_failed (packerNext_of_exec hpacker he) hf
  have hmessage := hobs.message
  obtain ⟨hcfg, hwp, hbits⟩ := hobs
  exact ⟨hwp.symm, hmessage.symm, by rw [State.hasCap, State.hasCap, hcfg, hwp], hhost,
    fun k hk => (hbits k hk).symm⟩

/-! ### PK.SKIP -/

theorem exec_skip_of_pos {n : Word} (h : 1 ≤ n.toInt) (s : State) :
    exec (.skip n) s = State.finish (rollback s.wp
      (s.emitChunks (skipChunk s.cfg) (skipTail s.cfg) s.cfg.manyMax n.toNat n.toNat)) := by
  simp only [exec, execSkip]
  rw [if_neg (not_operandS_le_zero h), count_eq h]

theorem skip_emitsOrFails {n : Word} {s : State} (h : 1 ≤ n.toInt) (hle : n.toInt ≤ s.cfg.manyMax) :
    EmitsOrFails (skipTail s.cfg n.toNat) (.skip n) s := by
  apply emitsOrFails_of_finishEmit
  rw [exec_skip_of_pos h, State.emitChunks_of_le (toNat_le_of_toInt_le h hle), finish_rollback_emit]

theorem skipTail_few {cfg : Cfg} {n : Nat} (h : n ≤ cfg.fewMax) :
    skipTail cfg n = [⟨cfg.dccSkipFew, cfg.wDcc⟩, ⟨n, cfg.wFew⟩] := if_neg (Nat.not_lt_of_le h)

theorem skipTail_many {cfg : Cfg} {n : Nat} (h : cfg.fewMax < n) :
    skipTail cfg n = [⟨cfg.dccSkipMany, cfg.wDcc⟩, ⟨n, cfg.wMany⟩] := if_pos h

theorem skipTail_eq_ite (cfg : Cfg) (n : Nat) :
    skipTail cfg n = if n ≤ cfg.fewMax then [⟨cfg.dccSkipFew, cfg.wDcc⟩, ⟨n, cfg.wFew⟩]
      else [⟨cfg.dccSkipMany, cfg.wDcc⟩, ⟨n, cfg.wMany⟩] := by
  by_cases h : n ≤ cfg.fewMax
  · rw [if_pos h, skipTail_few h]
  · rw [if_neg h, skipTail_many (Nat.lt_of_not_le h)]

/-- Settles O43: the tier of the count selects the tail, which above `MANY_MAX` is that of the remainder. -/
theorem skipEncodesByTier : Obligations.SkipEncodesByTier := by
  refine ⟨fun _ _ _ _ => by rw [decode_skip (toNat_op_pack _ _ _ _ _), Command.a_pack], fun n s hl => ?_⟩
  obtain ⟨hfew, hmany, -⟩ := Cfg.legal_counts hl
  refine ⟨fun h => exec_skip_trivial h s, fun h hle => ?_, fun hlt hle => ?_, fun k r hlt hsum hr hr' => ?_⟩
  · have hn := toInt_eq_toNat h
    rw [← skipTail_few (show n.toNat ≤ s.cfg.fewMax by omega)]
    exact skip_emitsOrFails h (by omega)
  · have hn := toInt_eq_toNat (n := n) (by omega)
    rw [← skipTail_many (show s.cfg.fewMax < n.toNat by omega)]
    exact skip_emitsOrFails (by omega) hle
  · rw [← skipTail_eq_ite, ← cost_skipChunk]
    exact emitsOrRollsBack_of_parts (cost_skipChunk_pos hl) hsum hr hr' (exec_skip_of_pos (by omega) s)

/-! ### PK.SETSEQ -/

section SetSeq

variable {num : Word} {payload : List Word} {s : State}

theorem isBytePayload_iff : isBytePayload payload = true ↔ ∀ v ∈ payload, v.toNat < 2 ^ 8 := by
  simp [isBytePayload, Config.wPay8]

/-- For a payload of bytes the fit in the byte field is the one test left (R47, R70). -/
theorem pay8_all_fitsPay8_iff (hb : isBytePayload payload = true) {n : Nat} (hn : n ≤ payload.length) (w : Nat) :
    (pay8 payload n).all (fitsPay8 w) = true ↔ ∀ v ∈ payload.take n, v.toNat < 2 ^ w := by
  rw [pay8_eq_take hn, List.all_map, List.all_eq_true]
  refine forall₂_congr fun v hv => ?_
  rw [Function.comp_apply, fitsPay8_iff]
  exact and_iff_right (isBytePayload_iff.1 hb v (List.mem_of_mem_take hv))

theorem exec_setSeq_tooShort (h : 1 ≤ num.toInt) (hlen : payload.length < num.toNat) :
    exec (.setSeq num payload) s = .refused .payloadTooShort := by
  simp only [exec, execSetSeq]
  rw [if_neg (not_operandS_le_zero h), count_eq h, if_pos hlen]

theorem exec_setSeq_tooWide (h : 1 ≤ num.toInt) (hlen : num.toNat ≤ payload.length)
    (hw : ¬(pay8 payload num.toNat).all (fitsPay8 s.cfg.wByte) = true) :
    exec (.setSeq num payload) s = .refused .valueTooWide := by
  simp only [exec, execSetSeq]
  rw [if_neg (not_operandS_le_zero h), count_eq h, if_neg (Nat.not_lt_of_le hlen), if_pos hw]

theorem exec_setSeq_fits (h : 1 ≤ num.toInt) (hlen : num.toNat ≤ payload.length)
    (hw : (pay8 payload num.toNat).all (fitsPay8 s.cfg.wByte) = true) :
    exec (.setSeq num payload) s = s.finishEmit (seqFields s.cfg num.toNat payload) := by
  simp only [exec, execSetSeq]
  rw [if_neg (not_operandS_le_zero h), count_eq h, if_neg (Nat.not_lt_of_le hlen), if_neg (not_not_intro hw)]

theorem setSeq_emitsOrFails (hb : isBytePayload payload = true) (h : 1 ≤ num.toInt)
    (hlen : num.toNat ≤ payload.length) (hw : ∀ v ∈ payload.take num.toNat, v.toNat < 2 ^ s.cfg.wByte) :
    EmitsOrFails (seqFields s.cfg num.toNat payload) (.setSeq num payload) s :=
  emitsOrFails_of_finishEmit (exec_setSeq_fits h hlen ((pay8_all_fitsPay8_iff hb hlen _).2 hw))

end SetSeq

theorem seqFields_eq (cfg : Cfg) (num : Nat) (payload : List Word) :
    seqFields cfg num payload = ⟨cfg.dccSetSeq, cfg.wDcc⟩ :: (List.range num).flatMap (fun i =>
      [⟨(payload.getD i 0).toNat, cfg.wByte⟩, ⟨if i + 1 < num then 1 else 0, cfg.wCont⟩]) := by
  simp only [seqFields, seqPair, memRead, Nat.lt_sub_iff_add_lt]

theorem cost_flatMap_const {f : Nat → List Field} {c : Nat} (h : ∀ i, cost (f i) = c) (l : List Nat) :
    cost (l.flatMap f) = l.length * c := by
  induction l with
  | nil => simp
  | cons i l ih => simp [ih, h, Nat.succ_mul, Nat.add_comm]

/-- The tag and `num` pairs of a byte and its flag (R69, R143). -/
theorem cost_seqFields (cfg : Cfg) (num : Nat) (payload : List Word) :
    cost (seqFields cfg num payload) = cfg.wDcc + num * (cfg.wByte + cfg.wCont) := by
  rw [seqFields, cost_cons, cost_flatMap_const (c := cfg.wByte + cfg.wCont) (fun i => by simp [seqPair]),
    List.length_range]

theorem exec_next_of_emitsOrFails {fs : List Field} {i : Instr} {s : State} (h : EmitsOrFails fs i s) :
    ∃ t, exec i s = .next t ∧ (Answered true t ↔ s.wp + cost fs ≤ s.cfg.capBits) := by
  obtain ⟨hfits, hfull⟩ := h
  by_cases hf : s.wp + cost fs ≤ s.cfg.capBits
  · obtain ⟨t, he, -, hok⟩ := hfits hf
    exact ⟨t, he, iff_of_true hok hf⟩
  · exact ⟨_, hfull (Nat.lt_of_not_le hf), iff_of_false nofun hf⟩

/-- Settles O45: the tests one after the other, and the one emission of the pairs. -/
theorem setSeqWritesBytes : Obligations.SetSeqWritesBytes := by
  refine ⟨fun _ _ _ _ => by rw [decode_setSeq (toNat_op_pack _ _ _ _ _), Command.a_pack],
    fun num payload s hb => ?_⟩
  refine ⟨fun h => exec_setSeq_trivial h payload s, fun h hlen => exec_setSeq_tooShort h hlen,
    fun h hlen ⟨v, hv, hwide⟩ => exec_setSeq_tooWide h hlen fun hall => ?_, fun h hlen hw => ?_⟩
  · exact Nat.not_lt_of_le hwide ((pay8_all_fitsPay8_iff hb hlen _).1 hall v hv)
  · rw [← seqFields_eq]
    exact setSeq_emitsOrFails hb h hlen hw

/-- Settles O46: a byte fits a field of 8 bits or more, and the emission succeeds exactly when its cost fits. -/
theorem setSeqCost : Obligations.SetSeqCost := by
  intro num payload s hb hw h hlen
  have hfit : ∀ v ∈ payload.take num.toNat, v.toNat < 2 ^ s.cfg.wByte := fun v hv =>
    (isBytePayload_iff.1 hb v (List.mem_of_mem_take hv)).trans_le (Nat.pow_le_pow_right (by decide) hw)
  rw [← cost_seqFields _ _ payload]
  exact exec_next_of_emitsOrFails (setSeq_emitsOrFails hb h hlen hfit)

/-! ### PK.SETRPT: how it ends -/

section SetRpt

variable {v l num : Word} {s : State}

theorem exec_setRpt_tooWide (h : 1 ≤ num.toInt) (hw : 2 ^ s.cfg.wByte ≤ v.toNat ∨ 2 ^ s.cfg.wByte ≤ l.toNat) :
    exec (.setRpt v l num) s = .refused .valueTooWide := by
  simp only [exec, execSetRpt]
  rw [if_neg (not_operandS_le_zero h), if_pos (by simpa only [Bool.and_eq_true, not_and_or, not_fits_iff] using hw)]

theorem exec_setRpt_fits (h : 1 ≤ num.toInt) (hv : v.toNat < 2 ^ s.cfg.wByte) (hl : l.toNat < 2 ^ s.cfg.wByte) :
    exec (.setRpt v l num) s = State.finish (rollback s.wp
      (s.emitChunks (rptChunk s.cfg v.toNat) (rptTail s.cfg v.toNat l.toNat) s.cfg.manyMax num.toNat num.toNat)) := by
  simp only [exec, execSetRpt]
  rw [if_neg (not_operandS_le_zero h), if_neg (by simpa using ⟨hv, hl⟩), count_eq h]

theorem exec_setRpt_of_le (h : 1 ≤ num.toInt) (hle : num.toInt ≤ s.cfg.manyMax) (hv : v.toNat < 2 ^ s.cfg.wByte)
    (hl : l.toNat < 2 ^ s.cfg.wByte) :
    exec (.setRpt v l num) s = s.finishEmit (rptTail s.cfg v.toNat l.toNat num.toNat) := by
  rw [exec_setRpt_fits h hv hl, State.emitChunks_of_le (toNat_le_of_toInt_le h hle), finish_rollback_emit]

theorem setRpt_emitsOrFails (h : 1 ≤ num.toInt) (hle : num.toInt ≤ s.cfg.manyMax) (hv : v.toNat < 2 ^ s.cfg.wByte)
    (hl : l.toNat < 2 ^ s.cfg.wByte) :
    EmitsOrFails (rptTail s.cfg v.toNat l.toNat num.toNat) (.setRpt v l num) s :=
  emitsOrFails_of_finishEmit (exec_setRpt_of_le h hle hv hl)

/-- Two last values that fit end alike when their split emissions are the same. -/
theorem exec_setRpt_congr_lastValue {l' : Word} (hl : l.toNat < 2 ^ s.cfg.wByte) (hl' : l'.toNat < 2 ^ s.cfg.wByte)
    (h : 1 ≤ num.toInt →
      s.emitChunks (rptChunk s.cfg v.toNat) (rptTail s.cfg v.toNat l.toNat) s.cfg.manyMax num.toNat num.toNat =
      s.emitChunks (rptChunk s.cfg v.toNat) (rptTail s.cfg v.toNat l'.toNat) s.cfg.manyMax num.toNat num.toNat) :
    exec (.setRpt v l num) s = exec (.setRpt v l' num) s := by
  by_cases hn : num.toInt ≤ 0
  · rw [exec_setRpt_trivial hn, exec_setRpt_trivial hn]
  · have hpos : 1 ≤ num.toInt := Int.lt_of_not_ge hn
    by_cases hv : v.toNat < 2 ^ s.cfg.wByte
    · rw [exec_setRpt_fits hpos hv hl, exec_setRpt_fits hpos hv hl', h hpos]
    · have hwide := Nat.le_of_not_lt hv
      rw [exec_setRpt_tooWide hpos (.inl hwide), exec_setRpt_tooWide hpos (.inl hwide)]

end SetRpt

/-! ### PK.SETRPT: the cases of R144 -/

section RptTail

variable {cfg : Cfg} {value lastValue n : Nat}

theorem rptTail_one : rptTail cfg value lastValue 1 =
    [⟨cfg.dccSetSeq, cfg.wDcc⟩, ⟨singleByte cfg value lastValue, cfg.wByte⟩, ⟨0, cfg.wCont⟩] := if_pos rfl

theorem rptTail_many (h1 : n ≠ 1) (h : cfg.fewMax < n) : rptTail cfg value lastValue n =
    [⟨cfg.dccSetManyValue, cfg.wDcc⟩, ⟨n, cfg.wMany⟩, ⟨value, cfg.wByte⟩] := by
  rw [rptTail, if_neg h1, if_pos h]

theorem rptTail_fewLast (h1 : n ≠ 1) (h : n ≤ cfg.fewMax) (heq : value = lastValue) :
    rptTail cfg value lastValue n = [⟨cfg.dccSetFewLast, cfg.wDcc⟩, ⟨n, cfg.wFew⟩] := by
  rw [rptTail, if_neg h1, if_neg (Nat.not_lt_of_le h), if_pos heq]

theorem rptTail_fewValue (h1 : n ≠ 1) (h : n ≤ cfg.fewMax) (hne : value ≠ lastValue) :
    rptTail cfg value lastValue n =
      [⟨cfg.dccSetFewValue, cfg.wDcc⟩, ⟨n, cfg.wFew⟩, ⟨value, cfg.wByte⟩] := by
  rw [rptTail, if_neg h1, if_neg (Nat.not_lt_of_le h), if_neg hne]

theorem singleByte_of_value (h : cfg.singleByteSource = .value) : singleByte cfg value lastValue = value := by
  rw [singleByte, h]

theorem singleByte_eq_ite (cfg : Cfg) (value lastValue : Nat) :
    singleByte cfg value lastValue = if cfg.singleByteSource = .value then value else lastValue := by
  cases h : cfg.singleByteSource <;> simp [singleByte, h]

/-- With `SINGLE_BYTE_SOURCE = value` the last value enters by one comparison alone (R146). -/
theorem rptTail_congr_lastValue (h : cfg.singleByteSource = .value) {lastValue' : Nat}
    (hiff : value = lastValue ↔ value = lastValue') : rptTail cfg value lastValue = rptTail cfg value lastValue' := by
  funext n
  simp only [rptTail, singleByte_of_value h, hiff]

/-- A maximal chunk is the large tier's command (R144 case 2). -/
theorem rptChunk_eq (h : cfg.legal = true) (value : Nat) : rptChunk cfg value =
    [⟨cfg.dccSetManyValue, cfg.wDcc⟩, ⟨cfg.manyMax, cfg.wMany⟩, ⟨value, cfg.wByte⟩] := by
  obtain ⟨hfew, hmany, -⟩ := Cfg.legal_counts h
  exact rptTail_many (by omega) hmany

end RptTail

/-- Settles O47: the count and the comparison select the one list that is emitted. -/
theorem setRptEncodesByCase : Obligations.SetRptEncodesByCase := by
  refine ⟨fun _ _ _ _ => ?_, fun v l num s hlegal => ?_⟩
  · rw [decode_setRpt (toNat_op_pack _ _ _ _ _), Command.a_pack, Command.b_pack, Command.c_pack]
  obtain ⟨hfew, hmany, -⟩ := Cfg.legal_counts hlegal
  refine ⟨fun h => exec_setRpt_trivial h v l s, fun h hw => exec_setRpt_tooWide h hw, fun hv hl => ?_⟩
  have hnum (h : 1 ≤ num.toInt) : num.toInt = num.toNat := toInt_eq_toNat h
  have hemit (h : 1 ≤ num.toInt) (hle : num.toInt ≤ s.cfg.manyMax) := setRpt_emitsOrFails h hle hv hl
  refine ⟨fun h => ?_, fun h hle heq => ?_, fun h hle hne => ?_, fun hlt h hle => ?_⟩
  · have := hemit (by omega) (by omega)
    rwa [show num.toNat = 1 by omega, rptTail_one, singleByte_eq_ite] at this
  · have := hemit (by omega) (by omega)
    rwa [rptTail_fewLast (by omega) (by omega) (congrArg BitVec.toNat heq)] at this
  · have := hemit (by omega) (by omega)
    rwa [rptTail_fewValue (by omega) (by omega) (BitVec.toNat_inj.not.2 hne)] at this
  · have := hemit (by omega) hle
    rwa [rptTail_many (by omega) (by omega)] at this

/-- Up to `MANY_MAX` copies the layout is the tail alone. -/
theorem layout_setRpt_of_le {cfg : Cfg} {num : Word} (h : 1 ≤ num.toInt) (hle : num.toNat ≤ cfg.manyMax)
    (v l : Word) : layout cfg (.setRpt v l num) = rptTail cfg v.toNat l.toNat num.toNat := by
  rw [layout, if_neg (not_operandS_le_zero h), count_eq h, rptFields, splitFields_of_le (one_le_toNat h) hle]

/-- A number below `2^31` is the count of the operand word that holds it (R61). -/
theorem toInt_ofNat_of_lt {r : Nat} (h : r < 2 ^ 31) : (BitVec.ofNat 32 r).toInt = r := by
  have htoNat : (BitVec.ofNat 32 r).toNat = r := Nat.mod_eq_of_lt (by omega)
  rw [BitVec.toInt_eq_toNat_of_lt (by omega), htoNat]

/-- Settles O48: the remainder is a count of its own, whose layout is the split's tail. -/
theorem setRptSplitsLargeCounts : Obligations.SetRptSplitsLargeCounts := by
  intro v l num s k r hlegal hv hl hlt hsum hr hr'
  have hnum := toInt_eq_toNat (n := num) (by omega)
  have hr31 : r < 2 ^ 31 := by have := BitVec.toInt_lt (x := num); omega
  have htoNat : (BitVec.ofNat 32 r).toNat = r := Nat.mod_eq_of_lt (by omega)
  have htail : layout s.cfg (.setRpt v l (BitVec.ofNat 32 r)) = rptTail s.cfg v.toNat l.toNat r := by
    rw [layout_setRpt_of_le (by rw [toInt_ofNat_of_lt hr31]; omega) (by omega), htoNat]
  rw [htail, ← rptChunk_eq hlegal, ← cost_rptChunk hlegal v.toNat]
  exact emitsOrRollsBack_of_parts (cost_rptTail_pos hlegal _ _ _) hsum hr hr' (exec_setRpt_fits (by omega) hv hl)

/-- Settles O50: the tail reads the last value through the comparison, and in the large tier not at all. -/
theorem lastValueOnlySelectsTag : Obligations.LastValueOnlySelectsTag := by
  intro v l l' num s hsrc hl hl'
  refine ⟨fun hiff => exec_setRpt_congr_lastValue hl hl' fun _ => ?_,
    fun hlegal hlt => exec_setRpt_congr_lastValue hl hl' fun hpos => ?_⟩
  · simp only [← BitVec.toNat_inj] at hiff
    rw [rptTail_congr_lastValue hsrc hiff]
  · obtain ⟨hfew, hmany, -⟩ := Cfg.legal_counts hlegal
    refine State.emitChunks_congr_tail (by omega) (cost_rptTail_pos hlegal _ _ _) (one_le_toNat hpos) ?_ s
    rw [rptTail_many (by omega) hlt, rptTail_many (by omega) hlt]

/-- The explicit sequence of one byte: no other byte follows (R143). -/
theorem seqFields_one (cfg : Cfg) (v : Word) : seqFields cfg 1 [v] =
    [⟨cfg.dccSetSeq, cfg.wDcc⟩, ⟨v.toNat, cfg.wByte⟩, ⟨0, cfg.wCont⟩] := rfl

/-- Settles O51: both commands make the one emission of a sequence of one byte. -/
theorem singleCopyIsSequence : Obligations.SingleCopyIsSequence := by
  intro v l s hsrc hlegal hbyte hv hl
  obtain ⟨hfew, hmany, -⟩ := Cfg.legal_counts hlegal
  have hone : (1 : Word).toInt = 1 := by decide
  have htoNat : (1 : Word).toNat = 1 := by decide
  have hb : isBytePayload [v] = true := isBytePayload_iff.2 (by simpa using hbyte)
  have hlen : (1 : Word).toNat ≤ [v].length := by rw [htoNat, List.length_singleton]
  have hall : (pay8 [v] (1 : Word).toNat).all (fitsPay8 s.cfg.wByte) = true :=
    (pay8_all_fitsPay8_iff hb hlen _).2 (by simpa using hv)
  rw [exec_setRpt_of_le (by omega) (by omega) hv hl, exec_setSeq_fits (by omega) hlen hall, htoNat, rptTail_one,
    singleByte_of_value hsrc, seqFields_one]

/-- Settles O53: the few-with-last-value command ends 7 bits on, the other two variants 15 and 19. -/
theorem fewWithLastIsShortest : Obligations.FewWithLastIsShortest := by
  intro v num maxBytes s hcfg hv hge hle hroom
  have hpos : 1 ≤ num.toInt := by omega
  have hnum := toInt_eq_toNat hpos
  have hmany : num.toInt ≤ s.cfg.manyMax := by rw [hcfg]; exact hle.trans (show (15 : Int) ≤ (255 : Nat) by decide)
  have hfit : v.toNat < 2 ^ s.cfg.wByte := by rw [hcfg]; exact hv
  have hfew : num.toNat ≤ s.cfg.fewMax := by rw [hcfg]; exact toNat_le_of_toInt_le hpos hle
  have hemit := setRpt_emitsOrFails hpos hmany hfit hfit
  rw [rptTail_fewLast (by omega) hfew rfl] at hemit
  have hfields : [⟨s.cfg.dccSetFewLast, s.cfg.wDcc⟩, ⟨num.toNat, s.cfg.wFew⟩] =
      [⟨6, 3⟩, Field.mk num.toNat 4] := by
    rw [hcfg]; rfl
  rw [hfields] at hemit
  obtain ⟨t, he, hwrote, hok⟩ := hemit.1 hroom
  have hwp : t.wp = s.wp + 7 := hwrote.1
  exact ⟨t, he, hwrote, hok, by rw [hwp]; simp, by rw [hwp]; simp⟩

end Sys2Proof.Machine
end

section
/-! The payload messages (R170, R171): a tag and the caller's words or 7-bit bytes in one emission, and where a byte of
an aligned firmware chunk stands in the output (R45). -/

namespace Sys2Proof.Machine

/-! ### PK.PROGEVT -/

/-- The words are written verbatim, 32 bits each (R170). -/
theorem progEvtFields_eq {cfg : Cfg} (hl : cfg.legal = true) {payload : List Word}
    (hlen : cfg.nProgWords ≤ payload.length) :
    progEvtFields cfg payload = ⟨cfg.mtProgEvt, cfg.wMsgType⟩ ::
      (payload.take cfg.nProgWords).map (fun w => ⟨w.toNat, 32⟩) := by
  obtain ⟨-, -, -, hword, -⟩ := Cfg.legal_fixed hl
  rw [progEvtFields, pay32_eq_take hlen, List.map_map, hword]
  rfl

theorem progEvt_emitsOrFails {payload : List Word} {s : State} (hlen : s.cfg.nProgWords ≤ payload.length) :
    EmitsOrFails (progEvtFields s.cfg payload) (.progEvt payload) s :=
  emitsOrFails_of_finishEmit (if_neg (Nat.not_lt_of_le hlen))

/-- Settles O54: the length of the payload is the one test, failed and passed. -/
theorem progEvtCopiesWords : Obligations.ProgEvtCopiesWords := by
  refine ⟨fun _ _ _ _ => decode_progEvt (toNat_op_pack _ _ _ _ _), fun payload s hl =>
    ⟨fun hshort => if_pos hshort, fun hlen => ?_⟩⟩
  rw [← progEvtFields_eq hl hlen]
  exact progEvt_emitsOrFails hlen

/-! ### PK.FWCHUNK -/

/-- In a field no wider than a byte the fit is the one test, whatever the elements (R47, R70, log 15). -/
theorem pay8_all_fitsPay8_iff_of_le {w : Nat} (hw : w ≤ 8) {payload : List Word} {n : Nat}
    (hn : n ≤ payload.length) :
    (pay8 payload n).all (fitsPay8 w) = true ↔ ∀ v ∈ payload.take n, v.toNat < 2 ^ w := by
  rw [pay8_eq_take hn, List.all_map, List.all_eq_true]
  refine forall₂_congr fun v _ => ?_
  rw [Function.comp_apply, fitsPay8_iff]
  exact and_iff_right_of_imp fun hv => hv.trans_le (Nat.pow_le_pow_right (by decide) hw)

/-- The elements are written verbatim, 7 bits each (R171). -/
theorem fwChunkFields_eq {cfg : Cfg} (hl : cfg.legal = true) {size : Nat} {payload : List Word}
    (hlen : size ≤ payload.length) :
    fwChunkFields cfg size payload = ⟨cfg.mtFwPkt, cfg.wMsgType⟩ :: ⟨size, cfg.wFwSize⟩ ::
      (payload.take size).map (fun w => ⟨w.toNat, 7⟩) := by
  obtain ⟨-, -, -, -, hpay⟩ := Cfg.legal_fixed hl
  rw [fwChunkFields, pay8_eq_take hlen, List.map_map, hpay]
  rfl

section FwChunk

variable {size : Word} {payload : List Word} {s : State}

theorem exec_fwChunk_sizeTooWide (hsize : 2 ^ s.cfg.wFwSize ≤ size.toNat) :
    exec (.fwChunk size payload) s = .refused .valueTooWide := if_pos ((not_fits_iff _ _).2 hsize)

theorem exec_fwChunk_tooShort (hsize : size.toNat < 2 ^ s.cfg.wFwSize) (hlen : payload.length < size.toNat) :
    exec (.fwChunk size payload) s = .refused .payloadTooShort := by
  simp only [exec, execFwChunk]
  rw [if_neg (not_not_intro ((fits_iff _ _).2 hsize)), if_pos hlen]

theorem exec_fwChunk_elementTooWide (hsize : size.toNat < 2 ^ s.cfg.wFwSize) (hlen : size.toNat ≤ payload.length)
    (hw : ¬(pay8 payload size.toNat).all (fitsPay8 s.cfg.wPay7) = true) :
    exec (.fwChunk size payload) s = .refused .valueTooWide := by
  simp only [exec, execFwChunk]
  rw [if_neg (not_not_intro ((fits_iff _ _).2 hsize)), if_neg (Nat.not_lt_of_le hlen), if_pos hw]

theorem exec_fwChunk_fits (hsize : size.toNat < 2 ^ s.cfg.wFwSize) (hlen : size.toNat ≤ payload.length)
    (hw : (pay8 payload size.toNat).all (fitsPay8 s.cfg.wPay7) = true) :
    exec (.fwChunk size payload) s = s.finishEmit (fwChunkFields s.cfg size.toNat payload) := by
  simp only [exec, execFwChunk]
  rw [if_neg (not_not_intro ((fits_iff _ _).2 hsize)), if_neg (Nat.not_lt_of_le hlen), if_neg (not_not_intro hw)]

/-- A chunk that is not refused has passed the three tests. -/
theorem exec_fwChunk_next {t : State} (h : exec (.fwChunk size payload) s = .next t) :
    size.toNat < 2 ^ s.cfg.wFwSize ∧ size.toNat ≤ payload.length ∧
      (pay8 payload size.toNat).all (fitsPay8 s.cfg.wPay7) = true := by
  simp only [exec, execFwChunk] at h
  split_ifs at h with hsize hlen hw
  exact ⟨(fits_iff _ _).1 hsize, Nat.le_of_not_lt hlen, hw⟩

end FwChunk

/-- Settles O55: the tests one after the other, and the one emission of tag, size and elements. -/
theorem fwChunkWritesPayload : Obligations.FwChunkWritesPayload := by
  refine ⟨fun _ _ _ _ => by rw [decode_fwChunk (toNat_op_pack _ _ _ _ _), Command.a_pack],
    fun size payload s hl => ?_⟩
  obtain ⟨-, -, -, -, hpay⟩ := Cfg.legal_fixed hl
  have hall (hlen : size.toNat ≤ payload.length) := pay8_all_fitsPay8_iff_of_le (w := 7) (by decide) hlen
  rw [← hpay] at hall
  refine ⟨exec_fwChunk_sizeTooWide, exec_fwChunk_tooShort, fun hsize hlen ⟨v, hv, hwide⟩ => ?_,
    fun hsize hlen hw => ?_⟩
  · exact exec_fwChunk_elementTooWide hsize hlen fun h => Nat.not_lt_of_le hwide (hpay ▸ (hall hlen).1 h v hv)
  · rw [← fwChunkFields_eq hl hlen]
    exact emitsOrFails_of_finishEmit (exec_fwChunk_fits hsize hlen ((hall hlen).2 (hpay ▸ hw)))

/-! ### An aligned chunk in the output -/

/-- A command that makes one emission and answers `ok = 1` has written its fields (R120). -/
theorem wrote_of_emitsOrFails {fs : List Field} {i : Instr} {s t : State} (h : EmitsOrFails fs i s)
    (he : exec i s = .next t) (hok : Answered true t) : Wrote fs s t := by
  obtain ⟨hfits, hfull⟩ := h
  by_cases hf : s.wp + cost fs ≤ s.cfg.capBits
  · obtain ⟨u, hu, hwrote, -⟩ := hfits hf
    cases he.symm.trans hu
    exact hwrote
  · cases he.symm.trans (hfull (Nat.lt_of_not_le hf))
    cases hok

/-- The bits of one field in the stream of a list, behind those of the fields before it (R69). -/
theorem fieldBits_getElem? {fs : List Field} {i : Nat} (hi : i < fs.length) {j : Nat} (hj : j < fs[i].width) :
    (fieldBits fs)[cost (fs.take i) + j]? = some (fs[i].value.testBit j) := by
  have hsplit : fieldBits fs = fieldBits (fs.take i) ++ (fs[i].bits ++ fieldBits (fs.drop (i + 1))) := by
    rw [← fieldBits_cons, ← List.drop_eq_getElem_cons hi, ← fieldBits_append, List.take_append_drop]
  rw [hsplit, List.getElem?_append_right (by simp), length_fieldBits, Nat.add_sub_cancel_left,
    List.getElem?_append_left (by simpa using hj)]
  simp [Field.bits, hj]

theorem cost_take_add_width_le {fs : List Field} {i : Nat} (hi : i < fs.length) :
    cost (fs.take i) + fs[i].width ≤ cost fs := by
  calc cost (fs.take i) + fs[i].width
      ≤ cost (fs.take i) + cost (fs.drop i) := by rw [List.drop_eq_getElem_cons hi, cost_cons]; omega
    _ = cost fs := by rw [← cost_append, List.take_append_drop]

/-- Each field of a written list stands behind the fields before it (R43, R69). -/
theorem bit_of_wrote {fs : List Field} {s t : State} (h : Wrote fs s t) {i : Nat} (hi : i < fs.length) {j : Nat}
    (hj : j < fs[i].width) : t.mem.bit (s.wp + (cost (fs.take i) + j)) = fs[i].value.testBit j := by
  obtain ⟨-, hbits, -⟩ := h
  have hle := cost_take_add_width_le hi
  exact Option.some.inj ((hbits _ (by omega)).trans (fieldBits_getElem? hi hj))

/-- An output byte all of whose bits are valid is the number they spell (R45). -/
theorem State.toNat_out {s : State} {i v : Nat} (hwp : streamIndex i 7 ≤ s.wp) (hv : v < 2 ^ 7)
    (hbits : ∀ j < 7, s.mem.bit (streamIndex i j) = v.testBit j) : (s.out i).toNat = v := by
  refine Nat.eq_of_testBit_eq fun j => ?_
  rw [BitVec.testBit_toNat, State.getLsbD_out_eq_outBit]
  unfold State.outBit Config.cellBits
  by_cases hj : j < 7
  · have hlt : streamIndex i j < s.wp := by unfold streamIndex at *; omega
    simp [hj, hlt, hbits j hj]
  · have htop : v < 2 ^ j := hv.trans_le (Nat.pow_le_pow_right (by decide) (Nat.le_of_not_lt hj))
    simp [hj, Nat.testBit_lt_two_pow htop]

theorem length_pay8 (payload : List Word) (n : Nat) : (pay8 payload n).length = n := by simp [pay8]

theorem take_pay8 {i n : Nat} (hi : i ≤ n) (payload : List Word) : (pay8 payload n).take i = pay8 payload i := by
  simp [pay8, ← List.map_take, hi]

theorem cost_take_fwChunkFields (cfg : Cfg) {size i : Nat} (hi : i ≤ size) (payload : List Word) :
    cost ((fwChunkFields cfg size payload).take (i + 2)) = cfg.wMsgType + (cfg.wFwSize + i * cfg.wPay7) := by
  simp [fwChunkFields, ← List.map_take, take_pay8 hi, cost_map_const, length_pay8]

theorem getElem?_fwChunkFields (cfg : Cfg) {size i : Nat} (hi : i < size) (payload : List Word) :
    (fwChunkFields cfg size payload)[i + 2]? = some ⟨memRead payload i, cfg.wPay7⟩ := by
  simp [fwChunkFields, pay8, hi]

/-- Element `i` of a written chunk stands behind tag, size and the `i` elements before it (R171), within what was
written. -/
theorem fwChunk_element_of_wrote {cfg : Cfg} {size : Nat} {payload : List Word} {s t : State}
    (h : Wrote (fwChunkFields cfg size payload) s t) {i : Nat} (hi : i < size) :
    s.wp + (cfg.wMsgType + (cfg.wFwSize + i * cfg.wPay7)) + cfg.wPay7 ≤ t.wp ∧ ∀ j < cfg.wPay7,
      t.mem.bit (s.wp + (cfg.wMsgType + (cfg.wFwSize + i * cfg.wPay7) + j)) = (memRead payload i).testBit j := by
  obtain ⟨hlt, hfield⟩ := List.getElem?_eq_some_iff.1 (getElem?_fwChunkFields cfg hi payload)
  have hend := cost_take_add_width_le hlt
  have hbit := fun j => bit_of_wrote h hlt (j := j)
  rw [cost_take_fwChunkFields cfg hi.le, hfield] at hend hbit
  obtain ⟨hwp, -⟩ := h
  refine ⟨?_, hbit⟩
  rw [hwp, Nat.add_assoc]
  exact Nat.add_le_add_left hend _

/-- Settles O56: from an aligned start tag and size fill two cells, and then each element one. -/
theorem alignedFwChunkBytes : Obligations.AlignedFwChunkBytes := by
  intro size payload s t hl htag hsizeWidth halign he hok i hlen hi
  obtain ⟨-, -, -, -, hpay⟩ := Cfg.legal_fixed hl
  obtain ⟨hsize, hle, hall⟩ := exec_fwChunk_next he
  have hwrote := wrote_of_emitsOrFails (emitsOrFails_of_finishEmit (exec_fwChunk_fits hsize hle hall)) he hok
  obtain ⟨hend, hbit⟩ := fwChunk_element_of_wrote hwrote hi
  rw [htag, hsizeWidth, hpay] at hend hbit
  rw [memRead_of_lt hlen] at hbit
  rw [hpay, pay8_all_fitsPay8_iff_of_le (by decide) hle] at hall
  have hindex (j : Nat) : streamIndex (s.wp / 7 + 2 + i) j = s.wp + (7 + (7 + i * 7) + j) := by
    unfold streamIndex Config.cellBits
    omega
  refine State.toNat_out ?_ ?_ fun j hj => ?_
  · rw [hindex]
    omega
  · exact hall _ (List.mem_take_iff_getElem.2 ⟨i, lt_min hi hlen, rfl⟩)
  · rw [hindex, hbit j hj]

end Sys2Proof.Machine
end

section
/-! The ends of a command (R180 to R189): refused for the first contract it violates, else a next state, and the one
fault outside the rules; what `ok = 0` means and what it leaves alone. -/

namespace Sys2Proof.Machine

/-! ### Refused, finished or faulted -/

theorem not_hasCap_iff (s : State) (n : Nat) : ¬s.hasCap n = true ↔ s.cfg.capBits < s.wp + n := by
  rw [hasCap_eq_true, not_le]

theorem not_width_admissible_iff (w maxWidth : Nat) : ¬(1 ≤ w ∧ w ≤ maxWidth) ↔ w = 0 ∨ maxWidth < w := by
  omega

/-- Every command but the read-out is refused for the contract it violates, and has a next state when it violates
none. -/
theorem exec_of_ne_getData {i : Instr} (hi : i ≠ .getData) (s : State) :
    ∃ t, exec i s = (violation s i).elim (.next t) .refused := by
  by_cases hp : isPacker i = true
  · obtain ⟨e, he⟩ := exec_packer hp s
    exact ⟨_, he⟩
  · cases i with
    | reset | hasCap | checkpoint => exact ⟨_, rfl⟩
    | getData => exact absurd rfl hi
    | write value width =>
      exact ⟨_, ite_refused_eq_elim (not_width_admissible_iff _ _)
        (ite_refused_eq_elim (not_fits_iff _ _) (ite_refused_eq_elim (not_hasCap_iff s _) rfl))⟩
    | restore sp => exact ⟨_, ite_refused_eq_elim Nat.not_le rfl⟩
    | header | footer | devCtrl | beginDc | endDc | skip | setSeq | setRpt | progEvt | fwChunk =>
      exact absurd rfl hp

theorem exec_getData_of_lt {s : State} (h : s.cfg.capBits < s.wp) :
    exec .getData s = .fault .readOutsideStorage := if_pos h

theorem exec_getData_ne_refused (s : State) (r : Refusal) : exec .getData s ≠ .refused r :=
  ite_ne_refused nofun nofun

/-! ### The statements -/

/-- Settles O10: the read-out faults above the capacity and nowhere else, and every other command is refused or has
a next state. -/
theorem onlyReadOutBeyondStoreFaults : Obligations.OnlyReadOutBeyondStoreFaults := by
  intro i s f
  constructor
  · intro he
    by_cases hi : i = .getData
    · subst hi
      refine ⟨rfl, Nat.lt_of_not_le fun hwp => ?_⟩
      rw [exec_getData_of_le hwp] at he
      cases he
    · obtain ⟨t, ht⟩ := exec_of_ne_getData hi s
      rw [he] at ht
      cases hv : violation s i <;> simp [hv] at ht
  · rintro ⟨rfl, hwp⟩
    cases f
    exact exec_getData_of_lt hwp

/-- Settles O33: the read-out has no contract, and every other command ends as the refusal table says. -/
theorem refusedExactlyOnViolation : Obligations.RefusedExactlyOnViolation := by
  intro i s r
  by_cases hi : i = .getData
  · subst hi
    exact iff_of_false (exec_getData_ne_refused s r) nofun
  · obtain ⟨t, ht⟩ := exec_of_ne_getData hi s
    rw [ht]
    cases violation s i <;> simp

/-! ### The failure response -/

/-- Only a packer command answers `ok = 0`, and then with no value and no bytes (R26, R180). -/
theorem packer_of_failed {i : Instr} {s t : State} {r : Response} (he : exec i s = .next t)
    (hr : t.response = some r) (hf : r.ok = false) : isPacker i = true ∧ Answered false t := by
  obtain ⟨r', hr', -, -, hpacker⟩ := everyCommandAnswers i s t he
  obtain rfl : r = r' := Option.some.inj (hr.symm.trans hr')
  have hi := hpacker hf
  obtain ⟨ok, hok⟩ := packerNext_response (packerNext_of_exec hi he)
  obtain rfl : r = ⟨ok, 0, []⟩ := Option.some.inj (hr.symm.trans hok)
  cases hf
  exact ⟨hi, hr⟩

/-- Settles O31: a packer command whose layout fits answers `ok = 1`, and one whose layout does not is rolled back. -/
theorem failsExactlyWhenFull : Obligations.FailsExactlyWhenFull := by
  intro i s t r hl hwp he hr
  constructor
  · intro hf
    obtain ⟨hi, hfailed⟩ := packer_of_failed he hr hf
    refine ⟨hi, Nat.lt_of_not_le fun hfit => ?_⟩
    rw [layoutNext_fits (layoutNext_of_exec hl hi he) hfit] at hfailed
    cases hfailed
  · rintro ⟨hi, hfull⟩
    obtain ⟨fs, rfl⟩ := layoutNext_full (layoutNext_of_exec hl hi he) (.inl hwp) hfull
    cases hr
    rfl

/-- Settles O32: a failure leaves what the host can see (R147), and no command sees more than that (R27). -/
theorem failureLeavesBuffer : Obligations.FailureLeavesBuffer := by
  intro i j s t r he hr hf
  obtain ⟨hi, hfailed⟩ := packer_of_failed he hr hf
  obtain ⟨hobs, hhost⟩ := packerNext_failed (packerNext_of_exec hi he) hfailed
  have hmessage := hobs.message
  have hnext := staleBitsUnobservable j s t hobs
  obtain ⟨-, hwp, hbits⟩ := hobs
  exact ⟨hwp.symm, hmessage.symm, hhost, fun k hk => (hbits k hk).symm, hnext⟩

end Sys2Proof.Machine
end

section
/-! RESET and the capacity hazard (R200, R207): the buffer that RESET empties, as the host sees it, and a capacity
answer that outlives every command which does not raise `WP`. -/

namespace Sys2Proof.Machine

theorem exec_reset (s : State) : exec .reset s = .next (s.fresh.answer Response.success) := rfl

/-! ### A state with `WP = 0`, whatever its storage holds -/

section Empty

variable {s : State} (hwp : s.wp = 0)

include hwp

/-- No bit is valid, so the constants are all the host can see (R29). -/
theorem obsEq_of_wp_eq_zero {t : State} (hcfg : s.cfg = t.cfg) (hwp' : t.wp = 0) : ObsEq s t :=
  ⟨hcfg, hwp.trans hwp'.symm, fun _ hk => absurd hwp (Nat.ne_zero_of_lt hk)⟩

theorem exec_getData_of_wp_eq_zero : exec .getData s = .next (s.answer ⟨true, 0, []⟩) := by
  have hcap : s.wp ≤ s.cfg.capBits := hwp.trans_le (Nat.zero_le _)
  have hlen : s.len = 0 := s.len_eq_zero_iff.2 hwp
  have hmessage : s.message = [] := s.message_eq_nil_iff.2 hwp
  have hval : val32 0 = 0 := BitVec.eq_of_toNat_eq (val32_toNat (by decide))
  rw [exec_getData_of_le hcap, hlen, hmessage, hval]

theorem exec_hasCap_of_wp_eq_zero (n : Word) : exec (.hasCap n) s =
    .next (s.answer ⟨true, if n.toNat ≤ s.cfg.capBits then 1 else 0, []⟩) := by
  rw [exec_hasCap, hwp, Nat.zero_add]

end Empty

/-! ### The statements -/

/-- Settles O19: RESET and BB.RESTORE 0 both leave `WP = 0`, and nothing the host reads there comes from the
storage. -/
theorem resetEmptiesBuffer : Obligations.ResetEmptiesBuffer := by
  refine ⟨fun _ _ _ _ => decode_reset (toNat_op_pack _ _ _ _ _), fun s => ?_⟩
  have hempty : (s.fresh.answer Response.success).wp = 0 := rfl
  exact ⟨_, exec_reset s, hempty, rfl, rfl, rfl, exec_getData_of_wp_eq_zero hempty,
    exec_hasCap_of_wp_eq_zero hempty, _, exec_restore_of_le (Nat.zero_le _), obsEq_of_wp_eq_zero hempty rfl rfl⟩

/-- Settles O37: the answer is 1 exactly when the bits fit above `WP`, and no command changes the capacity. -/
theorem hasCapStaysTrue : Obligations.HasCapStaysTrue := by
  intro i n s t he hwp hyes
  obtain ⟨hcfg, -⟩ := exec_cfg_commands he
  rw [exec_hasCap_yes_iff] at hyes ⊢
  rw [hcfg]
  exact (Nat.add_le_add_right hwp _).trans hyes

end Sys2Proof.Machine
end
